-- ==== Sys2Proof/Word.lean ====
section
/-! DEFINITION. The words of the frame-decode core, and nothing else: bytes, Channel Values, binary32 patterns and
the operand words of `spec/30_encoding.md` rule R77. -/

namespace Sys2Proof

/-- A byte: 8 bits, unsigned, bit 0 least significant (R11). -/
abbrev Byte := BitVec 8

/-- A Channel Value: an 11-bit unsigned integer, 0 to 2047 (R75, R110). -/
abbrev Channel := BitVec 11

/-- The 16-bit input of CHVAL (R75, CHVAL_IN_BITS of R9). -/
abbrev RawWord := BitVec 16

/-- A binary32 pattern: sign in bit 31, biased exponent in bits 30:23, fraction in bits 22:0 (R15). -/
abbrev F32 := BitVec 32

/-- The 200-bit frame word `F = buf[0] + (buf[1] << 8) + ... + (buf[24] << 192)` (R61). -/
abbrev FrameWord := BitVec 200

/-- The 176-bit operand word of CTRLMAP: channel j in bits `11*j + 10 : 11*j` (R77). -/
abbrev ChannelsWord := BitVec 176

/-- Sixteen Channel Values, indexed 0 to 15 (R17, R28). -/
abbrev Channels := Vector Channel 16

/-- The fill count: 0 to 25, the values 26 to 31 of a five-bit register being unrepresentable (R21, R22). -/
abbrev FillCount := Fin 26

end Sys2Proof
end

