-- ==== Sys2Proof/Config.lean ====
section
/-! DEFINITION. The constants of the hardware, one name each (`spec/00_scope.md` rule R9), and the two parameters the
spec leaves open (rule R10). -/

namespace Sys2Proof

/-- FRAME_LEN: bytes per frame and buffer capacity (R9). -/
abbrev frameLen : Nat := 25
/-- HEADER: the required value of frame byte 0 (R9). -/
abbrev header : Byte := 0x0F#8
/-- FOOTER: the required value of frame byte 24 (R9). -/
abbrev footer : Byte := 0x00#8
/-- HEADER_POS (R9). -/
abbrev headerPos : Nat := 0
/-- GROUP_A_POS: the first byte of payload group A (R9). -/
abbrev groupAPos : Nat := 1
/-- GROUP_B_POS: the first byte of payload group B (R9). -/
abbrev groupBPos : Nat := 12
/-- FLAG_POS (R9). -/
abbrev flagPos : Nat := 23
/-- FOOTER_POS (R9). -/
abbrev footerPos : Nat := 24
/-- CH_BITS: bits per channel (R9). -/
abbrev chBits : Nat := 11
/-- CH_MASK: the mask of the Channel Value constructor (R9). -/
abbrev chMask : Nat := 0x7FF
/-- CH_MAX: the largest channel value (R9). -/
abbrev chMax : Nat := 2047
/-- NUM_CH: proportional channels per frame (R9). -/
abbrev numCh : Nat := 16
/-- GROUP_BYTES: bytes per payload group (R9). -/
abbrev groupBytes : Nat := 11
/-- AXIS_CENTER: the raw value mapped to 0.0 (R9). -/
abbrev axisCenter : Nat := 1000
/-- AXIS_SPAN: the raw distance from centre mapped to magnitude 1.0 (R9). -/
abbrev axisSpan : Nat := 800
/-- AXIS_DEADZONE is 0.02, the rational `axisDeadzoneNum / axisDeadzoneDen` = 1/50 (R9, R131). -/
abbrev axisDeadzoneNum : Nat := 1
/-- The denominator of AXIS_DEADZONE (R9, R131). -/
abbrev axisDeadzoneDen : Nat := 50
/-- BUTTON_THRESHOLD: a raw value strictly greater than this is Pressed (R9). -/
abbrev buttonThreshold : Nat := 1000
/-- TW_UP: the only raw value mapped to Up (R9). -/
abbrev twUp : Nat := 1800
/-- TW_MID: a raw value mapped to Mid, as is every value but TW_UP and TW_DOWN (R9). -/
abbrev twMid : Nat := 1000
/-- TW_DOWN: the only raw value mapped to Down (R9). -/
abbrev twDown : Nat := 200
/-- AXIS_EPS is `2 ^ -axisEpsLog` = 2^-23, the machine epsilon of binary32 (R9; PRESUMED by the spec itself, G2;
log entry 8). -/
abbrev axisEpsLog : Nat := 23
/-- CHVAL_IN_BITS: the width of CHVAL's input (R9). -/
abbrev chvalInBits : Nat := 16

/-- The kind of a non-stick Controller State field (R10, R140). -/
inductive ControlKind where
  | axis
  | button
  | threeWay
deriving DecidableEq, Repr

/-- CTRL_KIND: the kind of each of the four non-stick fields of the Controller State, a function written as a record
of its four values (R10, R141). -/
structure CtrlKind where
  rightTrigger : ControlKind
  rightShoulder : ControlKind
  leftTrigger : ControlKind
  leftShoulder : ControlKind
deriving DecidableEq, Repr

/-- The spec's default of CTRL_KIND: triggers AXIS, shoulders THREEWAY (R141; log entry 5, DESIGN CHOICE). -/
def CtrlKind.specDefault : CtrlKind :=
  { rightTrigger := .axis, rightShoulder := .threeWay, leftTrigger := .axis, leftShoulder := .threeWay }

/-- The two parameters the spec leaves open (R10), fixed for one machine: no step changes them. -/
structure Config where
  /-- CTRL_KIND (R141). -/
  ctrlKind : CtrlKind
  /-- INGEST_MAX, the largest number of bytes one INGEST may offer; `none` takes the offered list unbounded, as R10
  allows (log entry 6). -/
  ingestMax : Option Nat
deriving DecidableEq, Repr

end Sys2Proof
end

