-- ==== Sys2Proof/Machine/Values.lean ====
section
/-! DEFINITION. The values the operations return: frame classes, Decoded Frames, control values, the Controller State
and the result record of TRY_DECODE (`spec/10_state.md` rule R28, `spec/30_encoding.md` rules R64, R72 to R76). -/

namespace Sys2Proof.Machine

/-- The frame classes (R64). -/
inductive FrameClass where
  | valid
  | badFooter
  | badHeader
deriving DecidableEq, Repr

/-- A Decoded Frame: sixteen Channel Values and four independent booleans (R17, R28). -/
structure DecodedFrame where
  ch : Channels
  ch17 : Bool
  ch18 : Bool
  frameLost : Bool
  failsafe : Bool
deriving DecidableEq, Repr

/-- Button (R73). -/
inductive Button where
  | released
  | pressed
deriving DecidableEq, Repr

/-- ThreeWay (R73). -/
inductive ThreeWay where
  | mid
  | up
  | down
deriving DecidableEq, Repr

/-- A Stick: a pair of Axis values (R17, R76). -/
structure Stick where
  x : F32
  y : F32
deriving DecidableEq, Repr

/-- The value of a non-stick Controller State field, of the kind CTRL_KIND gives it (R140, R141). -/
inductive ControlValue where
  | axis (p : F32)
  | button (b : Button)
  | threeWay (t : ThreeWay)
deriving DecidableEq, Repr

/-- The Controller State (R76). -/
structure ControllerState where
  rightThumb : Stick
  leftThumb : Stick
  rightTrigger : ControlValue
  rightShoulder : ControlValue
  leftTrigger : ControlValue
  leftShoulder : ControlValue
deriving DecidableEq, Repr

/-- `res` of TRY_DECODE (R72). -/
inductive Res where
  | notReady
  | frame
  | invalid
deriving DecidableEq, Repr

/-- `err` of TRY_DECODE (R72, R160, R161). -/
inductive Err where
  | none
  | headerMismatch
  | footerMismatch
deriving DecidableEq, Repr

/-- The result record of TRY_DECODE; `frame` and `ctrl` are absent, not zero, unless `res` is FRAME (R28). -/
structure DecodeResult where
  res : Res
  err : Err
  frame : Option DecodedFrame
  ctrl : Option ControllerState
deriving DecidableEq, Repr

/-- What one step returned. -/
inductive Result where
  /-- No result: RESET, an idle step (R90, R91). -/
  | nothing
  /-- `accepted` of INGEST (R93). -/
  | accepted (k : FillCount)
  /-- The record of TRY_DECODE (R96). -/
  | decoded (r : DecodeResult)
  /-- The class CLASSIFY found (R95). -/
  | frameClass (c : FrameClass)
  /-- The Channel Value of CHVAL (R110). -/
  | channel (v : Channel)
  /-- The Decoded Frame of UNPACK (R112). -/
  | unpacked (d : DecodedFrame)
  /-- The Axis of AXIS (R131). -/
  | axis (p : F32)
  /-- The Button of BUTTON (R134). -/
  | button (b : Button)
  /-- The ThreeWay of THREEWAY (R136). -/
  | threeWay (t : ThreeWay)
  /-- The boolean of AXEQ (R138). -/
  | axisEqual (b : Bool)
  /-- The Controller State of CTRLMAP (R140). -/
  | controls (c : ControllerState)
deriving DecidableEq, Repr

end Sys2Proof.Machine
end

