-- ==== Sys2Proof/Machine/Flags.lean ====
section
/-! DEFINITION. The bits of the flag byte and the bit codes of results and values (`spec/30_encoding.md` rules R62,
R72, R73; `spec/41_unpacker.md` rule R115). The core has no condition codes and no sticky flags (R26). -/

namespace Sys2Proof.Machine

/-- `ch17` is bit 0 of the flag byte (R115). -/
def flagCh17 (fl : Byte) : Bool := fl &&& 0x01#8 != 0#8

/-- `ch18` is bit 1 of the flag byte (R115). -/
def flagCh18 (fl : Byte) : Bool := fl &&& 0x02#8 != 0#8

/-- `frame_lost` is bit 2 of the flag byte (R115). -/
def flagFrameLost (fl : Byte) : Bool := fl &&& 0x04#8 != 0#8

/-- `failsafe` is bit 3 of the flag byte (R115). -/
def flagFailsafe (fl : Byte) : Bool := fl &&& 0x08#8 != 0#8

/-- The two-bit output `res` (R72, D6). -/
def resCode : Res → BitVec 2
  | .notReady => 0#2
  | .frame => 1#2
  | .invalid => 2#2

/-- The two-bit output `err` (R72, D6). -/
def errCode : Err → BitVec 2
  | .none => 0#2
  | .headerMismatch => 1#2
  | .footerMismatch => 2#2

/-- The one-bit code of a Button (R73, D9). -/
def buttonCode : Button → BitVec 1
  | .released => 0#1
  | .pressed => 1#1

/-- The two-bit code of a ThreeWay; 3 is never produced (R73, D9). -/
def threeWayCode : ThreeWay → BitVec 2
  | .mid => 0#2
  | .up => 1#2
  | .down => 2#2

/-- A fill count on five bits: the status output and `accepted` (R26, R72). -/
def countCode (k : FillCount) : BitVec 5 := BitVec.ofNat 5 k.val

end Sys2Proof.Machine
end

