-- ==== Sys2Proof/Syntax.lean ====
section
/-! DEFINITION. The operations of the core (`spec/30_encoding.md` rules R70, R80), one constructor for each of the
thirteen rows of `spec/opcode_table.json`, and the requests a caller presents (rules R71, R77). -/

namespace Sys2Proof

/-- The operations (R70). CLASSIFY has three rows, one per frame class, in the order they are tested (R80). -/
inductive Instr where
  /-- RESET, the pin `rst` (R91). -/
  | reset
  /-- INGEST of a list of offered bytes, the earliest arrived first (R93). -/
  | ingest (data : List Byte)
  /-- TRY_DECODE (R96). -/
  | tryDecode
  /-- CLASSIFY of a frame word of class VALID (R95). -/
  | classifyValid (f : FrameWord)
  /-- CLASSIFY of a frame word of class BAD_FOOTER (R95). -/
  | classifyBadFooter (f : FrameWord)
  /-- CLASSIFY of a frame word of class BAD_HEADER (R95). -/
  | classifyBadHeader (f : FrameWord)
  /-- CHVAL of a 16-bit raw word (R110). -/
  | chval (raw : RawWord)
  /-- UNPACK of a frame word (R112). -/
  | unpack (f : FrameWord)
  /-- AXIS of a Channel Value (R131). -/
  | axis (raw : Channel)
  /-- BUTTON of a Channel Value (R134). -/
  | button (raw : Channel)
  /-- THREEWAY of a Channel Value (R136). -/
  | threeway (raw : Channel)
  /-- AXEQ of two binary32 patterns (R138). -/
  | axeq (a b : F32)
  /-- CTRLMAP of sixteen Channel Values (R140). -/
  | ctrlmap (ch : Channels)
deriving DecidableEq, Repr

/-- The function units that are selected by no bit of their operand word (R70, R77). CLASSIFY is one unit. -/
inductive FnUnit where
  | classify
  | chval
  | unpack
  | axis
  | button
  | threeway
  | axeq
  | ctrlmap
deriving DecidableEq, Repr

/-- What one step is given from outside. -/
inductive Request where
  /-- The inputs of R71: `rst`, `cmd_valid`, `cmd`, `n` and the wires `data[0], data[1], ...`. -/
  | pins (rst cmdValid cmd : Bool) (n : Nat) (data : List Byte)
  /-- An operand word put to a function unit, as bytes, the least significant first (R70, R77; log entry 11). -/
  | unit (u : FnUnit) (word : List Byte)
  /-- Bytes that fit no input of the core (log entry 11). -/
  | stray (bytes : List Byte)
deriving DecidableEq, Repr

/-- Why a request is no operation and not idle either: a closed list. -/
inductive RequestError where
  /-- The operand word does not have the unit's width in bytes (R77). -/
  | operandLength
  /-- The operand word has a bit set above the unit's width (R77). -/
  | operandTooWide
  /-- `n` counts more bytes than the `data` wires carry (R71). -/
  | dataShorterThanN
  /-- The bytes fit no input of the core (R71, R77). -/
  | noSuchInput
deriving DecidableEq, Repr

end Sys2Proof
end

