-- ==== Sys2Proof/Machine/Operands.lean ====
section
/-! DEFINITION. The operand forms: bytes and fields of the frame word, byte lists against words, the channels of the
CTRLMAP word, and the lengths of the operand words (`spec/30_encoding.md` rules R61, R63, R77). -/

namespace Sys2Proof.Machine

/-- Frame byte i is `F[8*i + 7 : 8*i]` (R61). -/
def frameByte (f : FrameWord) (i : Nat) : Byte := f.extractLsb' (8 * i) 8

/-- The number whose bytes are listed, the least significant first. -/
def bytesToNat : List Byte → Nat
  | [] => 0
  | b :: bs => b.toNat + 256 * bytesToNat bs

/-- The k low bytes of a number, the least significant first. -/
def natToBytes : Nat → Nat → List Byte
  | 0, _ => []
  | k + 1, v => BitVec.ofNat 8 v :: natToBytes k (v / 256)

/-- The frame word of 25 bytes, byte 0 lowest (R61). -/
def frameOfBytes (bs : List Byte) : FrameWord := BitVec.ofNat 200 (bytesToNat bs)

/-- The 25 bytes of a frame word, byte 0 first (R61). -/
def frameBytes (f : FrameWord) : List Byte := natToBytes frameLen f.toNat

/-- The lowest bit of channel j in the frame word (R63). -/
def channelLo (j : Nat) : Nat := if j < 8 then 8 + chBits * j else 96 + chBits * (j - 8)

/-- Channel j of the CTRLMAP operand word is its bits `11*j + 10 : 11*j` (R77). -/
def channelsOfWord (w : ChannelsWord) : Channels :=
  Vector.ofFn fun (j : Fin 16) => w.extractLsb' (chBits * j.val) 11

/-- Eleven-bit values laid end to end, the first lowest. -/
def channelsToNat : List Channel → Nat
  | [] => 0
  | c :: cs => c.toNat + 2 ^ chBits * channelsToNat cs

/-- The CTRLMAP operand word of sixteen channels (R77). -/
def wordOfChannels (ch : Channels) : ChannelsWord := BitVec.ofNat 176 (channelsToNat ch.toList)

/-- How many bytes hold a unit's operand word (R77): 200 bits are 25 bytes, 16 and 11 bits 2, 64 bits 8, 176 bits 22. -/
def operandBytes : FnUnit → Nat
  | .classify => 25
  | .chval => 2
  | .unpack => 25
  | .axis => 2
  | .button => 2
  | .threeway => 2
  | .axeq => 8
  | .ctrlmap => 22

/-- How many bits a unit's operand word has (R77). -/
def operandBits : FnUnit → Nat
  | .classify => 200
  | .chval => 16
  | .unpack => 200
  | .axis => 11
  | .button => 11
  | .threeway => 11
  | .axeq => 64
  | .ctrlmap => 176

end Sys2Proof.Machine
end

