-- ==== Sys2Proof/Machine/Frame.lean ====
section
/-! DEFINITION. The frame as a value: its class, its unpacking, and the inverse the round-trip property presupposes
(`spec/40_accumulator.md` rule R95; `spec/41_unpacker.md` rules R110 to R119; `spec/30_encoding.md` rule R64). -/

namespace Sys2Proof.Machine

/-- CLASSIFY: the header byte first, the footer byte only under a right header (R95). -/
def classify (f : FrameWord) : FrameClass :=
  if frameByte f headerPos ≠ header then .badHeader
  else if frameByte f footerPos ≠ footer then .badFooter
  else .valid

/-- One row of the table of frame classes: `F & mask == pattern` (R64, R80). -/
structure FrameRow where
  cls : FrameClass
  mask : FrameWord
  pattern : FrameWord
deriving DecidableEq, Repr

/-- The rows CLASSIFY.VALID, CLASSIFY.BAD_FOOTER and CLASSIFY.BAD_HEADER of `spec/opcode_table.json`, in the order
they must be tested (R64, R80). -/
def frameRows : List FrameRow :=
  [ ⟨.valid, 0xFF0000000000000000000000000000000000000000000000FF#200, 0x0F#200⟩,
    ⟨.badFooter, 0xFF#200, 0x0F#200⟩,
    ⟨.badHeader, 0#200, 0#200⟩ ]

/-- The class of the first row that matches (R64). -/
def rowClass : List FrameRow → FrameWord → Option FrameClass
  | [], _ => none
  | r :: rs, f => if f &&& r.mask = r.pattern then some r.cls else rowClass rs f

/-- CHVAL, `raw & 0x7FF`, on every non-negative integer (R110). -/
def chval (raw : Nat) : Channel := BitVec.ofNat 11 (raw &&& chMask)

/-- GROUP: the eight channels of one payload group, by the source's byte formulas in unbounded integers, each passed
through CHVAL (R113, D19). -/
def group (b0 b1 b2 b3 b4 b5 b6 b7 b8 b9 b10 : Nat) : Vector Channel 8 :=
  #v[ chval ((b1 <<< 8) ||| b0),
      chval ((b2 <<< 5) ||| (b1 >>> 3)),
      chval ((b4 <<< 10) ||| (b3 <<< 2) ||| (b2 >>> 6)),
      chval ((b5 <<< 7) ||| (b4 >>> 1)),
      chval ((b6 <<< 4) ||| (b5 >>> 4)),
      chval ((b8 <<< 9) ||| (b7 <<< 1) ||| (b6 >>> 7)),
      chval ((b9 <<< 6) ||| (b8 >>> 2)),
      chval ((b10 <<< 3) ||| (b9 >>> 5)) ]

/-- GROUP of the eleven frame bytes from `base` on (R112). -/
def groupAt (f : FrameWord) (base : Nat) : Vector Channel 8 :=
  group (frameByte f base).toNat (frameByte f (base + 1)).toNat (frameByte f (base + 2)).toNat
    (frameByte f (base + 3)).toNat (frameByte f (base + 4)).toNat (frameByte f (base + 5)).toNat
    (frameByte f (base + 6)).toNat (frameByte f (base + 7)).toNat (frameByte f (base + 8)).toNat
    (frameByte f (base + 9)).toNat (frameByte f (base + 10)).toNat

/-- UNPACK: channels 0 to 7 from group A, 8 to 15 from group B, the flags from byte 23 (R112, R115). -/
def unpack (f : FrameWord) : DecodedFrame :=
  { ch := groupAt f groupAPos ++ groupAt f groupBPos
    ch17 := flagCh17 (frameByte f flagPos)
    ch18 := flagCh18 (frameByte f flagPos)
    frameLost := flagFrameLost (frameByte f flagPos)
    failsafe := flagFailsafe (frameByte f flagPos) }

/-- The 88-bit integer of eight channels, channel i at bit `11*i` (R119). -/
def groupStream (cs : List Channel) : Nat := channelsToNat cs

/-- PACK, the inverse of UNPACK for building test frames; no operation of the core (R119). -/
def pack (ch : Channels) (fl : Byte) : FrameWord :=
  frameOfBytes
    (header :: (natToBytes groupBytes (groupStream (ch.toList.take 8)) ++
      natToBytes groupBytes (groupStream (ch.toList.drop 8)) ++ [fl, footer]))

end Sys2Proof.Machine
end

