-- ==== Sys2Proof/WellFormed.lean ====
section
/-! DEFINITION. Which operations can be asked of a machine of a given configuration: a CLASSIFY row holds a frame of
its own class (`spec/30_encoding.md` rule R64), and INGEST offers no more than INGEST_MAX bytes (rule R71,
`spec/92_eei_decisions.md` D4). -/

namespace Sys2Proof

/-- The offered list is within INGEST_MAX; an unbounded INGEST_MAX admits every list (R10, D4; log entry 6). -/
def withinIngestMax (ingestMax : Option Nat) (n : Nat) : Bool :=
  match ingestMax with
  | none => true
  | some m => decide (n ≤ m)

/-- Well-formedness of an operation, for every constructor. -/
def Instr.wf (cfg : Config) : Instr → Bool
  | .reset => true
  | .ingest data => withinIngestMax cfg.ingestMax data.length
  | .tryDecode => true
  | .classifyValid f => decide (Machine.classify f = .valid)
  | .classifyBadFooter f => decide (Machine.classify f = .badFooter)
  | .classifyBadHeader f => decide (Machine.classify f = .badHeader)
  | .chval _ => true
  | .unpack _ => true
  | .axis _ => true
  | .button _ => true
  | .threeway _ => true
  | .axeq _ _ => true
  | .ctrlmap _ => true

end Sys2Proof
end

