-- ==== Sys2Proof/Decode.lean ====
section
/-! DEFINITION. Reading a request as an operation, total and refusing by name, and its inverse, the encoder
(`spec/30_encoding.md` rules R64, R71, R77, R80). -/

namespace Sys2Proof

/-- What a request asks for. -/
inductive Decoded where
  /-- An operation. -/
  | op (i : Instr)
  /-- Nothing: `rst == 0` and `cmd_valid == 0` (R71, R90). -/
  | idle
  /-- No request the core can be given. -/
  | rejected (e : RequestError)
deriving DecidableEq, Repr

/-- CLASSIFY's row for a frame word: the first of the three rows that matches (R64, R80). -/
def decodeClassify (f : FrameWord) : Decoded :=
  match Machine.rowClass Machine.frameRows f with
  | some .valid => .op (.classifyValid f)
  | some .badFooter => .op (.classifyBadFooter f)
  | some .badHeader => .op (.classifyBadHeader f)
  | none => .rejected .noSuchInput

/-- The operation of a function unit on an operand word that fits it (R77). -/
def decodeOperand (u : FnUnit) (w : Nat) : Decoded :=
  match u with
  | .classify => decodeClassify (BitVec.ofNat 200 w)
  | .chval => .op (.chval (BitVec.ofNat 16 w))
  | .unpack => .op (.unpack (BitVec.ofNat 200 w))
  | .axis => .op (.axis (BitVec.ofNat 11 w))
  | .button => .op (.button (BitVec.ofNat 11 w))
  | .threeway => .op (.threeway (BitVec.ofNat 11 w))
  | .axeq => .op (.axeq (BitVec.ofNat 32 (w / 2 ^ 32)) (BitVec.ofNat 32 w))
  | .ctrlmap => .op (.ctrlmap (Machine.channelsOfWord (BitVec.ofNat 176 w)))

/-- A function unit and the bytes of its operand word (R77; log entry 11). -/
def decodeUnit (u : FnUnit) (word : List Byte) : Decoded :=
  if word.length ≠ Machine.operandBytes u then .rejected .operandLength
  else if Machine.bytesToNat word ≥ 2 ^ Machine.operandBits u then .rejected .operandTooWide
  else decodeOperand u (Machine.bytesToNat word)

/-- The pins of R71: `rst` wins; then `cmd_valid` asks for the operation `cmd` names; `n` and `data` are read only by
INGEST, and of `data` only the first n bytes. -/
def decodePins (rst cmdValid cmd : Bool) (n : Nat) (data : List Byte) : Decoded :=
  if rst then .op .reset
  else if !cmdValid then .idle
  else if cmd then .op .tryDecode
  else if n ≤ data.length then .op (.ingest (data.take n))
  else .rejected .dataShorterThanN

/-- The decoder (R71, R77). -/
def decode : Request → Decoded
  | .pins rst cmdValid cmd n data => decodePins rst cmdValid cmd n data
  | .unit u word => decodeUnit u word
  | .stray _ => .rejected .noSuchInput

/-- The encoder: the request that asks for an operation (R71, R77). -/
def encode : Instr → Request
  | .reset => .pins true false false 0 []
  | .ingest data => .pins false true false data.length data
  | .tryDecode => .pins false true true 0 []
  | .classifyValid f => .unit .classify (Machine.natToBytes 25 f.toNat)
  | .classifyBadFooter f => .unit .classify (Machine.natToBytes 25 f.toNat)
  | .classifyBadHeader f => .unit .classify (Machine.natToBytes 25 f.toNat)
  | .chval raw => .unit .chval (Machine.natToBytes 2 raw.toNat)
  | .unpack f => .unit .unpack (Machine.natToBytes 25 f.toNat)
  | .axis raw => .unit .axis (Machine.natToBytes 2 raw.toNat)
  | .button raw => .unit .button (Machine.natToBytes 2 raw.toNat)
  | .threeway raw => .unit .threeway (Machine.natToBytes 2 raw.toNat)
  | .axeq a b => .unit .axeq (Machine.natToBytes 8 (a.toNat * 2 ^ 32 + b.toNat))
  | .ctrlmap ch => .unit .ctrlmap (Machine.natToBytes 22 (Machine.wordOfChannels ch).toNat)

/-- The request a word of `spec/opcode_table.json` stands for, `nbits` wide. One byte is a PIN or CMD word: the word 1
is the pin `rst`, and otherwise bit 1 is `cmd_valid` and bit 0 is `cmd` (R80). Longer words are operand words, and the
table's operand words do not select their unit (R77): a 25-byte word is put to CLASSIFY and not to UNPACK, a two-byte
word to CHVAL and not to AXIS, BUTTON or THREEWAY, an 11-bit one to AXIS (log entry 10, DESIGN CHOICE). -/
def tableRequest (nbits w : Nat) : Request :=
  if nbits ≤ 8 then
    if w = 1 ∧ nbits ≠ 2 then .pins true false false 0 []
    else if w < 4 then .pins false (w.testBit 1) (w.testBit 0) 0 []
    else .stray (Machine.natToBytes 1 w)
  else if nbits = 11 then .unit .axis (Machine.natToBytes 2 w)
  else if nbits = 16 then .unit .chval (Machine.natToBytes 2 w)
  else if nbits = 64 then .unit .axeq (Machine.natToBytes 8 w)
  else if nbits = 176 then .unit .ctrlmap (Machine.natToBytes 22 w)
  else if nbits = 200 then .unit .classify (Machine.natToBytes 25 w)
  else .stray (Machine.natToBytes ((nbits + 7) / 8) w)

/-- The operation the decoder reads from a word of the opcode table (log entry 10). -/
def decodeTableWord (nbits w : Nat) : Option Instr :=
  match decode (tableRequest nbits w) with
  | .op i => some i
  | .idle => none
  | .rejected _ => none

end Sys2Proof
end

