-- ==== Sys2Proof/Machine/Float32.lean ====
section
/-! DEFINITION. The binary32 arithmetic the calibrator uses: rounding an exact rational, and the exact value of a
pattern (`spec/00_scope.md` rule R15; `spec/92_eei_decisions.md` D10, D11; log entries 7 and 8). -/

namespace Sys2Proof.Machine

/-- `bits32 (f32 (num / den))`: the pattern of the binary32 nearest the rational `num / den`, ties to the even
significand (R15). With q the magnitude, `l = floor (log2 q) + 40` and the significand is `q * 2^63 / 2^l` rounded
to an integer in 2^23 to 2^24; the top value carries into the exponent. Right for q = 0 and for q from 2^-40 to 2^127;
the spec applies it only to q = 0 and to q from 1/800 to 2 (R15; log entry 7). -/
def f32 (num : Int) (den : Nat) : F32 :=
  let n := num.natAbs
  if n = 0 then 0#32
  else
    let l := Nat.log2 (n * 2 ^ 40 / den)
    let p := n * 2 ^ 63
    let d := den * 2 ^ l
    let m := if d < 2 * (p % d) ∨ (2 * (p % d) = d ∧ p / d % 2 = 1) then p / d + 1 else p / d
    BitVec.ofNat 32 ((if num < 0 then 2 ^ 31 else 0) + (l + 86) * 2 ^ 23 + m)

/-- The sign bit of a pattern (R15). -/
def f32Neg (p : F32) : Bool := p.getLsbD 31

/-- The biased exponent field of a pattern, bits 30:23 (R15). -/
def f32Exp (p : F32) : Nat := (p.extractLsb' 23 8).toNat

/-- The fraction field of a pattern, bits 22:0 (R15). -/
def f32Frac (p : F32) : Nat := (p.extractLsb' 0 23).toNat

/-- The pattern is of a finite number: neither an infinity nor a NaN (R139 (d), U6). -/
def f32Finite (p : F32) : Bool := f32Exp p != 255

/-- The magnitude of a finite pattern, times 2^149: a whole number (R15). -/
def f32Mag (p : F32) : Nat :=
  if f32Exp p = 0 then f32Frac p else (2 ^ 23 + f32Frac p) * 2 ^ (f32Exp p - 1)

/-- The exact value of a finite pattern, times 2^149: comparisons and differences of binary32 values are comparisons
and differences of these integers (R131, R138). -/
def f32Scaled (p : F32) : Int := if f32Neg p then -(f32Mag p : Int) else (f32Mag p : Int)

/-- The exact value of a finite pattern, as a rational (R15). -/
def f32Value (p : F32) : Rat := (f32Scaled p : Rat) / 2 ^ 149

end Sys2Proof.Machine
end

