-- ==== Sys2Proof/Machine/Calibrate.lean ====
section
/-! DEFINITION. The channel calibrator as pure functions (`spec/42_calibrator.md`). Each formula is written for any
non-negative integer `raw`, as R130 gives it. -/

namespace Sys2Proof.Machine

/-- AXIS by the pseudocode of R131: one rounded division, then the dead zone and the clamp by comparisons of binary32
values (D10; log entry 7). -/
def axis (raw : Nat) : F32 :=
  let normalized := f32 ((raw : Int) - axisCenter) axisSpan
  if |f32Scaled normalized| < f32Scaled (f32 axisDeadzoneNum axisDeadzoneDen) then 0x00000000#32
  else if f32Scaled normalized > f32Scaled (f32 1 1) then 0x3F800000#32
  else if f32Scaled normalized < f32Scaled (f32 (-1) 1) then 0xBF800000#32
  else normalized

/-- `axis_q`, the exact rational behind AXIS (R132). -/
def axisQ (raw : Nat) : Rat :=
  let d : Int := (raw : Int) - axisCenter
  if |d| ≤ 15 then 0 else if d ≥ axisSpan then 1 else if d ≤ -(axisSpan : Int) then -1 else (d : Rat) / axisSpan

/-- BUTTON (R134). -/
def button (raw : Nat) : Button := if raw > buttonThreshold then .pressed else .released

/-- THREEWAY, exact match only (R136). -/
def threeWay (raw : Nat) : ThreeWay := if raw = twUp then .up else if raw = twDown then .down else .mid

/-- AXEQ on finite operands: `abs (a - b) <= 2^-23`, the difference exact (R138, D11; log entry 8). -/
def axeq (a b : F32) : Bool := |f32Scaled a - f32Scaled b| ≤ 2 ^ (149 - axisEpsLog)

/-- CAL: the calibration of one raw channel by the kind of its field (R140). -/
def cal (kind : ControlKind) (raw : Nat) : ControlValue :=
  match kind with
  | .axis => .axis (axis raw)
  | .button => .button (button raw)
  | .threeWay => .threeWay (threeWay raw)

/-- CTRLMAP: the fixed assignment table; the left stick takes y from channel 2 and x from channel 3 (R140). -/
def ctrlmap (kind : CtrlKind) (ch : Channels) : ControllerState :=
  { rightThumb := { x := axis ch[0].toNat, y := axis ch[1].toNat }
    leftThumb := { y := axis ch[2].toNat, x := axis ch[3].toNat }
    rightTrigger := cal kind.rightTrigger ch[4].toNat
    rightShoulder := cal kind.rightShoulder ch[5].toNat
    leftTrigger := cal kind.leftTrigger ch[6].toNat
    leftShoulder := cal kind.leftShoulder ch[7].toNat }

end Sys2Proof.Machine
end

