-- ==== Sys2Proof/Machine/State.lean ====
section
/-! DEFINITION. The state of the machine, its stops, and the state right after reset (`spec/10_state.md`). -/

namespace Sys2Proof.Machine

/-- The buffer `buf`: the cells that hold a value, by offset, strictly rising. An offset that is not listed holds no
value: its byte is stale (R20, R23; log entries 3 and 4). -/
abbrev Memory := List Host.Cell

/-- The state. -/
structure State where
  /-- `fill_count` (R21). -/
  fillCount : FillCount
  /-- `buf` (R20). -/
  buf : Memory
  /-- THE MODEL'S OWN: what the caller will present in the coming steps, the next first (R25, R183; log entry 1). -/
  inputs : List Request
  /-- THE MODEL'S OWN: what the last step returned; the spec's results are not state, and no operation reads this field
  (R27; log entry 2). -/
  result : Result
  /-- The two open parameters, which no step changes (R10; log entries 5 and 6). -/
  config : Config
deriving DecidableEq, Repr

/-- Why the machine stops with a fault. -/
inductive Fault where
  /-- Raised by reading a byte of `buf` that holds no value (R13, R23). Safe: no state that the operations reach from
  reset raises it, and the spec says such a byte must never be read (log entry 4). -/
  | staleByte (offset : Nat)
deriving DecidableEq, Repr

/-- Why the machine gives a request no meaning. -/
inductive Refusal where
  /-- Raised by `exec` for an instruction without a meaning; none is left. Safe. -/
  | notModelled (mnemonic : String)
  /-- Raised by `step` on a request that fits no input of the core (R71, R77; log entry 11). Safe. -/
  | badRequest (e : RequestError)
  /-- Raised by `step` on an INGEST that offers more than INGEST_MAX bytes (R78, D4, U7; log entry 6). Safe. -/
  | offeredOverIngestMax
  /-- Raised by AXEQ on an infinite or NaN operand (R139 (d), U6; log entry 9). Safe. -/
  | axeqNotFinite
deriving DecidableEq, Repr

/-- The state after RESET and at creation of the accumulator: EMPTY, no byte of `buf` with a value (R32). The requests
are empty, the result is none, and the parameters stand at the spec's default CTRL_KIND and an unbounded INGEST_MAX
(log entries 1, 2, 5, 6, 13). -/
def State.reset : State :=
  { fillCount := 0
    buf := []
    inputs := []
    result := .nothing
    config := { ctrlKind := CtrlKind.specDefault, ingestMax := none } }

end Sys2Proof.Machine
end

