-- ==== Sys2Proof/Machine/Ops.lean ====
section
/-! DEFINITION. The named operations over the buffer and the state, the entry of a frame-structure error among them
(`spec/00_scope.md` rules R13, R14; `spec/60_exceptions.md` rule R163). -/

namespace Sys2Proof.Machine

/-- The outcomes of one step of this machine. -/
abbrev Step := Host.Outcome State Fault Refusal

/-- The byte an offset holds; an unlisted offset holds none (log entry 4). -/
def Memory.read : Memory → Nat → Option Byte
  | [], _ => none
  | (k, v) :: m, a => if k = a then some v else Memory.read m a

/-- Store one byte, keeping the offsets strictly rising (R13). -/
def Memory.write : Memory → Nat → Byte → Memory
  | [], a, b => [(a, b)]
  | (k, v) :: m, a, b =>
    if a < k then (a, b) :: (k, v) :: m
    else if a = k then (a, b) :: m
    else (k, v) :: Memory.write m a b

/-- Store a list of bytes, the first at the lowest offset (R41). -/
def Memory.writeList : Memory → Nat → List Byte → Memory
  | m, _, [] => m
  | m, a, b :: bs => Memory.writeList (Memory.write m a b) (a + 1) bs

/-- The canonical form: every listed offset is at least `lo`, below FRAME_LEN, and below the next (R29). -/
def Memory.wfFrom : Nat → Memory → Bool
  | _, [] => true
  | lo, (k, _) :: m => decide (lo ≤ k) && decide (k < frameLen) && Memory.wfFrom (k + 1) m

/-- The buffer is in canonical form. -/
def Memory.wf (m : Memory) : Bool := Memory.wfFrom 0 m

/-- MemRead of one byte: legal only below `fill_count` (R13, R23). -/
def readByte (s : State) (a : Nat) : Except Fault Byte :=
  if a < s.fillCount.val then
    match Memory.read s.buf a with
    | some b => .ok b
    | none => .error (.staleByte a)
  else .error (.staleByte a)

/-- MemRead of n bytes, the lowest offset first (R13). -/
def readBytes (s : State) : Nat → Nat → Except Fault (List Byte)
  | 0, _ => .ok []
  | n + 1, a =>
    match readByte s a with
    | .error e => .error e
    | .ok b =>
      match readBytes s n (a + 1) with
      | .error e => .error e
      | .ok bs => .ok (b :: bs)

/-- The window: the 25 bytes of a full buffer as the frame word (R18, R61). -/
def readWindow (s : State) : Except Fault FrameWord :=
  match readBytes s frameLen 0 with
  | .error e => .error e
  | .ok bs => .ok (frameOfBytes bs)

/-- How many of n offered bytes fit: `min(n, 25 - fill_count)` (R93). -/
def acceptedOf (fill : FillCount) (n : Nat) : FillCount :=
  ⟨min n (frameLen - fill.val), by simp only [frameLen]; omega⟩

/-- The fill count after k more bytes; the sum does not pass 25 when k is what fits (R21, R93). -/
def advance (fill : FillCount) (k : FillCount) : FillCount :=
  ⟨min frameLen (fill.val + k.val), by simp only [frameLen]; omega⟩

/-- `fill_count <- 0`: all 25 bytes become stale, and the model drops their values (R23, R24, D21; log entry 3). -/
def discard (s : State) : State := { s with fillCount := 0, buf := [] }

/-- Append bytes at the fill offset and count them (R93). -/
def append (s : State) (k : FillCount) (bs : List Byte) : State :=
  { s with fillCount := advance s.fillCount k, buf := Memory.writeList s.buf s.fillCount.val bs }

/-- End the operation with a result (R14, R27). -/
def answer (r : Result) (s : State) : Step := .next { s with result := r }

/-- The entry of a frame-structure error, `raise FrameError(kind)`: the whole buffer is discarded, `res` is INVALID,
`err` is the kind, and control goes nowhere (R14, R163). There is no return from it: the state it leaves is EMPTY and
holds nothing to restore (R164). -/
def raiseFrameError (kind : Err) (s : State) : Step :=
  answer (.decoded { res := .invalid, err := kind, frame := none, ctrl := none }) (discard s)

/-- The status output `fill_count`, five bits; reading it changes nothing (R26). -/
def statusOut (s : State) : FillCount := s.fillCount

end Sys2Proof.Machine
end

