-- ==== Sys2Proof/Machine/Accumulator.lean ====
section
/-! DEFINITION. The stateful operations RESET, INGEST and TRY_DECODE and the three rows of CLASSIFY
(`spec/40_accumulator.md`). -/

namespace Sys2Proof.Machine

/-- RESET (R91). -/
def execReset (s : State) : Step := answer .nothing (discard s)

/-- INGEST: as many of the offered bytes as fit are appended, the rest forgotten (R93). -/
def execIngest (data : List Byte) (s : State) : Step :=
  let k := acceptedOf s.fillCount data.length
  answer (.accepted k) (append s k (data.take k.val))

/-- A full window judged: an error, or the Decoded Frame and its Controller State (R96). -/
def decodeWindow (f : FrameWord) (s : State) : Step :=
  match classify f with
  | .badHeader => raiseFrameError .headerMismatch s
  | .badFooter => raiseFrameError .footerMismatch s
  | .valid =>
    answer (.decoded { res := .frame, err := .none, frame := some (unpack f),
                       ctrl := some (ctrlmap s.config.ctrlKind (unpack f).ch) }) (discard s)

/-- TRY_DECODE (R96). -/
def execTryDecode (s : State) : Step :=
  if s.fillCount.val < frameLen then
    answer (.decoded { res := .notReady, err := .none, frame := none, ctrl := none }) s
  else
    match readWindow s with
    | .error e => .fault e
    | .ok f => decodeWindow f s

/-- CLASSIFY of a frame of class VALID (R95; log entry 12). -/
def execClassifyValid (f : FrameWord) (s : State) : Step := answer (.frameClass (classify f)) s

/-- CLASSIFY of a frame of class BAD_FOOTER (R95; log entry 12). -/
def execClassifyBadFooter (f : FrameWord) (s : State) : Step := answer (.frameClass (classify f)) s

/-- CLASSIFY of a frame of class BAD_HEADER (R95; log entry 12). -/
def execClassifyBadHeader (f : FrameWord) (s : State) : Step := answer (.frameClass (classify f)) s

end Sys2Proof.Machine
end

