-- ==== Sys2Proof/Machine/Units.lean ====
section
/-! DEFINITION. The pure operations CHVAL, UNPACK, AXIS, BUTTON, THREEWAY, AXEQ and CTRLMAP as steps: each returns its
value and changes no state (`spec/30_encoding.md` rule R70). -/

namespace Sys2Proof.Machine

/-- CHVAL (R110). -/
def execChval (raw : RawWord) (s : State) : Step := answer (.channel (chval raw.toNat)) s

/-- UNPACK (R112). -/
def execUnpack (f : FrameWord) (s : State) : Step := answer (.unpacked (unpack f)) s

/-- AXIS (R131). -/
def execAxis (raw : Channel) (s : State) : Step := answer (.axis (axis raw.toNat)) s

/-- BUTTON (R134). -/
def execButton (raw : Channel) (s : State) : Step := answer (.button (button raw.toNat)) s

/-- THREEWAY (R136). -/
def execThreeway (raw : Channel) (s : State) : Step := answer (.threeWay (threeWay raw.toNat)) s

/-- AXEQ; an infinite or NaN operand is refused (R138, R139 (d), U6; log entry 9). -/
def execAxeq (a b : F32) (s : State) : Step :=
  if f32Finite a && f32Finite b then answer (.axisEqual (axeq a b)) s else .refused .axeqNotFinite

/-- CTRLMAP under the machine's CTRL_KIND (R140, R141). -/
def execCtrlmap (ch : Channels) (s : State) : Step := answer (.controls (ctrlmap s.config.ctrlKind ch)) s

end Sys2Proof.Machine
end

