-- ==== Sys2Proof/Machine/Dispatch.lean ====
section
/-! DEFINITION. One arm per operation (`spec/30_encoding.md` rule R70). -/

namespace Sys2Proof.Machine

def exec (i : Instr) (s : State) : Host.Outcome State Fault Refusal :=
  match i with
  | .reset => Sys2Proof.Machine.execReset s
  | .ingest data => Sys2Proof.Machine.execIngest data s
  | .tryDecode => Sys2Proof.Machine.execTryDecode s
  | .classifyValid f => Sys2Proof.Machine.execClassifyValid f s
  | .classifyBadFooter f => Sys2Proof.Machine.execClassifyBadFooter f s
  | .classifyBadHeader f => Sys2Proof.Machine.execClassifyBadHeader f s
  | .chval raw => Sys2Proof.Machine.execChval raw s
  | .unpack f => Sys2Proof.Machine.execUnpack f s
  | .axis raw => Sys2Proof.Machine.execAxis raw s
  | .button raw => Sys2Proof.Machine.execButton raw s
  | .threeway raw => Sys2Proof.Machine.execThreeway raw s
  | .axeq a b => Sys2Proof.Machine.execAxeq a b s
  | .ctrlmap ch => Sys2Proof.Machine.execCtrlmap ch s

end Sys2Proof.Machine
end

