-- ==== Sys2Proof/Machine/Fetch.lean ====
section
/-! DEFINITION. Taking the caller's next request and carrying it out (`spec/30_encoding.md` rule R71;
`spec/70_reset_and_hazards.md` rule R183; log entry 1). -/

namespace Sys2Proof.Machine

/-- A step without a request: no state changes and nothing is returned (R90). -/
def idleStep (s : State) : Step := answer .nothing s

/-- A decoded request carried out: an operation within the machine's INGEST_MAX runs, an idle request changes nothing,
and a request that fits no input is refused by name (R71, R78, R90). -/
def runDecoded (d : Decoded) (s : State) : Step :=
  match d with
  | .op i => if i.wf s.config then exec i s else .refused .offeredOverIngestMax
  | .idle => idleStep s
  | .rejected e => .refused (.badRequest e)

/-- The state with a request presented before all others (log entry 1). -/
def present (r : Request) (s : State) : State := { s with inputs := r :: s.inputs }

end Sys2Proof.Machine
end

