-- ==== Sys2Proof/Machine/Step.lean ====
section
/-! DEFINITION. One step: the next request, decoded and carried out whole (`spec/00_scope.md` rule R16;
`spec/70_reset_and_hazards.md` rule R183; log entry 1). -/

namespace Sys2Proof.Machine

/-- One step of the machine (R16, R183). -/
def step (s : State) : Host.Outcome State Fault Refusal :=
  match s.inputs with
  | [] => idleStep s
  | r :: rest => runDecoded (decode r) { s with inputs := rest }

/-- The state with a word of the opcode table presented as the next request (log entries 1 and 10). -/
def State.withFetchWord (s : State) (nbits w : Nat) : State := present (tableRequest nbits w) s

end Sys2Proof.Machine
end

