-- ==== Sys2Proof/Machine/Pseudo.lean ====
section
/-! DEFINITION. Runs of operations and the pseudo-operations POLL and FEED (`spec/70_reset_and_hazards.md` rule R183;
`spec/30_encoding.md` rule R79; log entry 16). None of them is an operation of the core. -/

namespace Sys2Proof.Machine

/-- What a run leaves: the state and the sequence of results it observed (R183). -/
abbrev RunOutcome := Host.Outcome (State × List Result) Fault Refusal

/-- Go on after one step of a run, with the step's result in front of the later ones. -/
def observe (o : Step) (rest : State → RunOutcome) : RunOutcome :=
  match o with
  | .fault e => .fault e
  | .refused e => .refused e
  | .next t =>
    match rest t with
    | .next (u, rs) => .next (u, t.result :: rs)
    | .fault e => .fault e
    | .refused e => .refused e

/-- A run: operations carried out in order, observed through their results (R183). -/
def runOps : List Instr → State → RunOutcome
  | [], s => .next (s, [])
  | i :: is, s => observe (exec i s) (runOps is)

/-- POLL: INGEST, then TRY_DECODE; bytes INGEST does not accept are lost (R79). -/
def poll (bytes : List Byte) : List Instr := [.ingest bytes, .tryDecode]

/-- The `accepted` a result carries. -/
def acceptedIn : Result → Nat
  | .accepted k => k.val
  | _ => 0

/-- FEED, bounded by a number of passes: INGEST, drop the accepted bytes, TRY_DECODE, and again while bytes remain; it
yields the TRY_DECODE results (R79). -/
def feedPasses : Nat → List Byte → State → RunOutcome
  | 0, _, s => .next (s, [])
  | n + 1, bytes, s =>
    match exec (.ingest bytes) s with
    | .fault e => .fault e
    | .refused e => .refused e
    | .next t =>
      let left := bytes.drop (acceptedIn t.result)
      observe (exec .tryDecode t) fun u => if left.isEmpty then .next (u, []) else feedPasses n left u

/-- FEED. A full buffer costs one pass that accepts nothing, and every other pass with bytes left accepts at least
one, so two passes more than there are bytes are enough (R79; log entry 16). -/
def feed (bytes : List Byte) (s : State) : RunOutcome := feedPasses (bytes.length + 2) bytes s

end Sys2Proof.Machine
end

