-- ==== Sys2Proof/Safety.lean ====
section
/-! DEFINITION. What a good state is, what a step keeps, and the output words: the terms the statements use. -/

namespace Sys2Proof.Machine

/-- The invariant: the buffer is in canonical form and its valid bytes are exactly the offsets below `fill_count`
(R22, R23). -/
def State.Inv (s : State) : Prop :=
  Memory.wf s.buf = true ∧ ∀ a : Nat, (Memory.read s.buf a).isSome = true ↔ a < s.fillCount.val

/-- The accumulator holds exactly these bytes, the first at offset 0: the window of R24. -/
def State.Holds (s : State) (bs : List Byte) : Prop :=
  s.fillCount.val = bs.length ∧ ∀ a : Nat, a < bs.length → Memory.read s.buf a = bs[a]?

/-- EMPTY, with no byte of `buf` holding a value (R31, R32). -/
def State.Empty (s : State) : Prop := s.fillCount = 0 ∧ ∀ a : Nat, Memory.read s.buf a = none

/-- Every byte of `buf` reads in `t` as it does in `s`, and so does `fill_count`. -/
def SameAccumulator (s t : State) : Prop :=
  t.fillCount = s.fillCount ∧ ∀ a : Nat, Memory.read t.buf a = Memory.read s.buf a

/-- The caller's later requests and the open parameters are the same in `t` as in `s`. -/
def SameOutside (s t : State) : Prop := t.inputs = s.inputs ∧ t.config = s.config

/-- The two states agree on everything the caller can come to see: `fill_count`, the valid bytes, the requests and the
parameters; stale bytes and the last result are left out (R24, R27, R30). -/
def Agree (s t : State) : Prop :=
  t.fillCount = s.fillCount ∧ (∀ a : Nat, a < s.fillCount.val → Memory.read t.buf a = Memory.read s.buf a) ∧
    t.inputs = s.inputs ∧ t.config = s.config

/-- Every byte of `buf` is stale: reading it is the fault (R23). -/
def AllStale (s : State) : Prop := ∀ a : Nat, readByte s a = .error (.staleByte a)

/-- The result of TRY_DECODE on a buffer that is not full (R96). -/
def notReadyResult : Result := .decoded { res := .notReady, err := .none, frame := none, ctrl := none }

/-- The result of TRY_DECODE on a full buffer that fails its structural check (R96, R163). -/
def invalidResult (kind : Err) : Result := .decoded { res := .invalid, err := kind, frame := none, ctrl := none }

/-- The result of TRY_DECODE on a full buffer that holds a VALID frame (R96). -/
def frameResult (kind : CtrlKind) (f : FrameWord) : Result :=
  .decoded { res := .frame, err := .none, frame := some (unpack f), ctrl := some (ctrlmap kind (unpack f).ch) }

/-- The result of TRY_DECODE on a full buffer, by the frame word's header and footer bytes (R96). -/
def windowResult (kind : CtrlKind) (f : FrameWord) : Result :=
  if frameByte f 0 ≠ 0x0F#8 then invalidResult .headerMismatch
  else if frameByte f 24 ≠ 0x00#8 then invalidResult .footerMismatch
  else frameResult kind f

/-- The bytes a list of operations offers to INGEST, in order. -/
def offered : List Instr → List Byte
  | [] => []
  | .ingest data :: is => data ++ offered is
  | _ :: is => offered is

/-- The result of one operation of a run that never has a full buffer: INGEST takes all it is offered, TRY_DECODE finds
the buffer not ready (R100). -/
def starvedResult : Instr → Result
  | .ingest data => .accepted (acceptedOf 0 data.length)
  | _ => notReadyResult

/-- The pure operations (R70). -/
def IsPure : Instr → Prop
  | .reset => False
  | .ingest _ => False
  | .tryDecode => False
  | .classifyValid _ => True
  | .classifyBadFooter _ => True
  | .classifyBadHeader _ => True
  | .chval _ => True
  | .unpack _ => True
  | .axis _ => True
  | .button _ => True
  | .threeway _ => True
  | .axeq _ _ => True
  | .ctrlmap _ => True

/-- The operands are ones the spec gives the operation a result for: AXEQ's are finite (R139 (d)). -/
def Runnable : Instr → Prop
  | .axeq a b => f32Finite a = true ∧ f32Finite b = true
  | _ => True

end Sys2Proof.Machine
end

