-- ==== Sys2Proof/Certificates/Slice0/Obligations.lean ====
section
/-! DEFINITION. The statements for the provers, from the numbered rules of the spec. -/

open Sys2Proof Sys2Proof.Machine

/-! ### Requests and encodings -/

/-- A few requests decode to their operations, one or more of every format of the opcode table: PIN, CMD, FRAME, FN.
The command inputs are those of R71 and R80, and the operand values lie in the bits R77 gives them. That an operand
word is presented as bytes, the least significant first, is the model's choice (log entry 11, DESIGN CHOICE), and so is
that CLASSIFY decodes to the constructor of its frame's class (log entry 12, DESIGN CHOICE). -/
def Obligations.SampleRequestsDecode : Prop :=
  decode (.pins true false false 0 []) = .op .reset ∧
  decode (.pins false true false 3 [0x0F#8, 0xE8#8, 0x43#8]) = .op (.ingest [0x0F#8, 0xE8#8, 0x43#8]) ∧
  decode (.pins false true true 0 []) = .op .tryDecode ∧
  decode (.unit .classify (0x0F#8 :: List.replicate 24 0x00#8)) = .op (.classifyValid 0x0F#200) ∧
  decode (.unit .classify (0x0F#8 :: List.replicate 23 0x00#8 ++ [0x04#8])) =
    .op (.classifyBadFooter (BitVec.ofNat 200 (0x04 * 2 ^ 192 + 0x0F))) ∧
  decode (.unit .classify (List.replicate 25 0x00#8)) = .op (.classifyBadHeader 0#200) ∧
  decode (.unit .chval [0xE8#8, 0x43#8]) = .op (.chval 0x43E8#16) ∧
  decode (.unit .unpack (0x0F#8 :: List.replicate 24 0x00#8)) = .op (.unpack 0x0F#200) ∧
  decode (.unit .axis [0x78#8, 0x05#8]) = .op (.axis 1400#11) ∧
  decode (.unit .button [0xE8#8, 0x03#8]) = .op (.button 1000#11) ∧
  decode (.unit .threeway [0x08#8, 0x07#8]) = .op (.threeway 1800#11) ∧
  decode (.unit .axeq [0x01#8, 0x00#8, 0x80#8, 0x3F#8, 0x00#8, 0x00#8, 0x80#8, 0x3F#8]) =
    .op (.axeq 0x3F800000#32 0x3F800001#32) ∧
  decode (.unit .ctrlmap (0x01#8 :: 0x10#8 :: List.replicate 20 0x00#8)) =
    .op (.ctrlmap #v[1#11, 2#11, 0#11, 0#11, 0#11, 0#11, 0#11, 0#11, 0#11, 0#11, 0#11, 0#11, 0#11, 0#11, 0#11, 0#11])

/-- Decoding the encoding of any well-formed operation gives it back, with every operand at every value. The byte
layout of operand words and the constructors of CLASSIFY are the model's own (log entries 11 and 12). -/
def Obligations.DecodeOfEncode : Prop :=
  ∀ (cfg : Config) (i : Instr), i.wf cfg = true → decode (encode i) = .op i

/-- An operand word that a function unit takes is the encoding of the operation it is read as: no bit of it is dropped.
The byte layout of operand words is the model's own (log entry 11). -/
def Obligations.EncodeOfDecodedOperand : Prop :=
  ∀ (u : FnUnit) (word : List Byte) (i : Instr), decode (.unit u word) = .op i → encode i = .unit u word

/-- R77, the operand words: which bits of a word each function unit reads as which operand. AXEQ's `a` is bits 63:32
and its `b` bits 31:0, channel j of CTRLMAP is bits `11*j + 10 : 11*j`, and CLASSIFY and UNPACK read the frame word.
That CLASSIFY decodes to the constructor of the row, of the rows of R64 and R80, whose class the frame has is the
model's choice (log entry 12, DESIGN CHOICE). -/
def Obligations.OperandWordsFollowTheTable : Prop :=
  (∀ r : RawWord, decodeOperand .chval r.toNat = .op (.chval r)) ∧
  (∀ r : Channel, decodeOperand .axis r.toNat = .op (.axis r) ∧ decodeOperand .button r.toNat = .op (.button r) ∧
    decodeOperand .threeway r.toNat = .op (.threeway r)) ∧
  (∀ w : BitVec 64, decodeOperand .axeq w.toNat = .op (.axeq (w.extractLsb' 32 32) (w.extractLsb' 0 32))) ∧
  (∀ f : FrameWord, decodeOperand .unpack f.toNat = .op (.unpack f) ∧
    (classify f = .valid → decodeOperand .classify f.toNat = .op (.classifyValid f)) ∧
    (classify f = .badFooter → decodeOperand .classify f.toNat = .op (.classifyBadFooter f)) ∧
    (classify f = .badHeader → decodeOperand .classify f.toNat = .op (.classifyBadHeader f))) ∧
  (∀ w : ChannelsWord, ∃ ch : Channels, decodeOperand .ctrlmap w.toNat = .op (.ctrlmap ch) ∧
    ∀ (j : Nat) (h : j < 16), ch[j] = w.extractLsb' (11 * j) 11)

/-- R71, the command interface. `rst` wins over `cmd_valid`; `cmd` is 0 for INGEST and 1 for TRY_DECODE and is ignored
when `cmd_valid` is 0; of `data` only the first n bytes are looked at, and only by INGEST; and with `rst` and
`cmd_valid` both 0 the step changes nothing and returns nothing. -/
def Obligations.PinsChooseTheOperation : Prop :=
  (∀ (cmdValid cmd : Bool) (n : Nat) (data : List Byte), decode (.pins true cmdValid cmd n data) = .op .reset) ∧
  (∀ (n : Nat) (data more : List Byte), data.length = n →
    decode (.pins false true false n (data ++ more)) = .op (.ingest data)) ∧
  (∀ (n : Nat) (data : List Byte), decode (.pins false true true n data) = .op .tryDecode) ∧
  (∀ (cmd : Bool) (n : Nat) (data : List Byte) (rest : List Request) (s : State),
    s.inputs = .pins false false cmd n data :: rest →
    step s = .next { s with inputs := rest, result := .nothing })

/-- R64, the frame classes: the first matching row of the table is the class CLASSIFY computes, each class is exactly
its condition on the header bits 7:0 and the footer bits 199:192, and a header and a footer byte alone decide it. -/
def Obligations.FrameRowsAgreeWithClassify : Prop :=
  ∀ f : FrameWord, rowClass frameRows f = some (classify f) ∧
    (classify f = .valid ↔ f.extractLsb' 0 8 = 0x0F#8 ∧ f.extractLsb' 192 8 = 0x00#8) ∧
    (classify f = .badFooter ↔ f.extractLsb' 0 8 = 0x0F#8 ∧ f.extractLsb' 192 8 ≠ 0x00#8) ∧
    (classify f = .badHeader ↔ f.extractLsb' 0 8 ≠ 0x0F#8)

/-! ### The step -/

/-- When the next request decodes to a well-formed operation, the step is that operation at the state without the
request (log entry 1). -/
def Obligations.StepRunsTheDecodedOperation : Prop :=
  ∀ (s : State) (r : Request) (rest : List Request) (i : Instr),
    s.inputs = r :: rest → decode r = .op i → i.wf s.config = true → step s = exec i { s with inputs := rest }

/-- The stops that are not operations: a request that fits no input is refused by name, an `n` above the bytes carried
is one, an INGEST of more than INGEST_MAX bytes is refused (D4, U7), and AXEQ refuses an operand that is infinite or a
NaN (U6, R139 (d)). That a word or an `n` that does not fit is refused at all, and under which name each stop goes, is
the model's choice (log entries 6, 9, 11 and 15). -/
def Obligations.StopsAreNamed : Prop :=
  (∀ (s : State) (r : Request) (rest : List Request) (e : RequestError),
    s.inputs = r :: rest → decode r = .rejected e → step s = .refused (.badRequest e)) ∧
  (∀ (u : FnUnit) (word : List Byte), word.length ≠ operandBytes u →
    decode (.unit u word) = .rejected .operandLength) ∧
  (∀ (u : FnUnit) (word : List Byte), word.length = operandBytes u → 2 ^ operandBits u ≤ bytesToNat word →
    decode (.unit u word) = .rejected .operandTooWide) ∧
  (∀ (n : Nat) (data : List Byte), data.length < n →
    decode (.pins false true false n data) = .rejected .dataShorterThanN) ∧
  (∀ bytes : List Byte, decode (.stray bytes) = .rejected .noSuchInput) ∧
  (∀ (n m : Nat) (data : List Byte) (rest : List Request) (s : State),
    s.inputs = .pins false true false n data :: rest → n ≤ data.length → s.config.ingestMax = some m → m < n →
    step s = .refused .offeredOverIngestMax) ∧
  (∀ (a b : F32) (s : State), a.extractLsb' 23 8 = 255#8 ∨ b.extractLsb' 23 8 = 255#8 →
    exec (.axeq a b) s = .refused .axeqNotFinite)

/-- R90: steps in which the caller requests nothing, however many, change no state and return no result; a partly
filled buffer stays as it is. -/
def Obligations.IdleStepsChangeNothing : Prop :=
  ∀ (k : Nat) (s : State),
    (∀ r ∈ s.inputs.take (k + 1), ∃ (cmd : Bool) (n : Nat) (data : List Byte), r = .pins false false cmd n data) →
    Sys2Proof.core.run (k + 1) s = .next { s with inputs := s.inputs.drop (k + 1), result := .nothing }

/-! ### RESET, INGEST, TRY_DECODE -/

/-- R32: at creation, and after RESET from every state, `fill_count` is 0, no byte of `buf` has a value, and no result
is held. -/
def Obligations.ResetStateIsEmpty : Prop :=
  (State.reset.fillCount = 0 ∧ AllStale State.reset ∧ State.reset.result = .nothing) ∧
  ∀ s t : State, exec .reset s = .next t → t.fillCount = 0 ∧ AllStale t ∧ t.result = .nothing

/-- R91, RESET: it completes from every state with `fill_count` 0, every byte of `buf` stale and no result, the later
requests and the parameters as they were; and it wins over a command in the same step. -/
def Obligations.ResetEmptiesTheAccumulator : Prop :=
  (∀ s : State, ∃ t : State, exec .reset s = .next t ∧ t.fillCount = 0 ∧ AllStale t ∧ t.result = .nothing ∧
    SameOutside s t) ∧
  (∀ (cmdValid cmd : Bool) (n : Nat) (data : List Byte) (rest : List Request) (s : State),
    s.inputs = .pins true cmdValid cmd n data :: rest → step s = exec .reset { s with inputs := rest })

/-- R93, INGEST: `cmd_valid` with `cmd` 0 asks for it; it completes from every state; with k = min(n, 25 - fill_count)
it returns `accepted = k`, stores `data[0..k-1]` at offsets `fill_count` to `fill_count + k - 1`, adds k to
`fill_count`, and every other byte of `buf`, the later requests and the parameters are as they were. -/
def Obligations.IngestAppendsWhatFits : Prop :=
  ∀ (data : List Byte) (s : State), ∃ (t : State) (k : FillCount),
    decode (.pins false true false data.length data) = .op (.ingest data) ∧
    exec (.ingest data) s = .next t ∧ k.val = min data.length (25 - s.fillCount.val) ∧
    t.result = .accepted k ∧ t.fillCount.val = s.fillCount.val + k.val ∧
    (∀ i : Nat, i < k.val → Memory.read t.buf (s.fillCount.val + i) = data[i]?) ∧
    (∀ a : Nat, a < s.fillCount.val ∨ s.fillCount.val + k.val ≤ a → Memory.read t.buf a = Memory.read s.buf a) ∧
    SameOutside s t

/-- R94, the corner cases of INGEST, which the spec derives from R93: (a) no bytes, (b) a full buffer, (c) and (d)
enough bytes to fill it, (e) the bytes already there, (f) the count never falls, and (g) two INGESTs are one INGEST of
the lists joined. -/
def Obligations.IngestCornerCases : Prop :=
  (∀ s : State, exec (.ingest []) s = .next { s with result := .accepted 0 }) ∧
  (∀ (data : List Byte) (s : State), s.fillCount.val = 25 →
    exec (.ingest data) s = .next { s with result := .accepted 0 }) ∧
  (∀ (data : List Byte) (s : State), 25 - s.fillCount.val ≤ data.length →
    ∃ t : State, exec (.ingest data) s = .next t ∧ t.fillCount.val = 25 ∧
      (∃ k : FillCount, t.result = .accepted k ∧ k.val = 25 - s.fillCount.val) ∧
      ∀ a : Nat, s.fillCount.val ≤ a → a < 25 → Memory.read t.buf a = data[a - s.fillCount.val]?) ∧
  (∀ (data : List Byte) (s t : State), exec (.ingest data) s = .next t →
    s.fillCount.val ≤ t.fillCount.val ∧
      ∀ a : Nat, a < s.fillCount.val → Memory.read t.buf a = Memory.read s.buf a) ∧
  (∀ (xs ys : List Byte) (s : State), ∃ (t u v : State) (k l m : FillCount),
    exec (.ingest xs) s = .next t ∧ exec (.ingest ys) t = .next u ∧ exec (.ingest (xs ++ ys)) s = .next v ∧
    t.result = .accepted k ∧ u.result = .accepted l ∧ v.result = .accepted m ∧ k.val + l.val = m.val ∧
    u = { v with result := .accepted l })

/-- R96, TRY_DECODE: `cmd_valid` with `cmd` 1 asks for it; on a buffer that is not full it completes with NOT_READY and
changes nothing; on a full buffer of bytes b it completes, leaves `fill_count` 0 and every byte of `buf` stale, and
returns INVALID with the header mismatch when `b[0]` is not 0x0F, INVALID with the footer mismatch when it is and
`b[24]` is not 0x00, and otherwise FRAME with UNPACK of the bytes and CTRLMAP of its channels; requests and parameters
are as they were. -/
def Obligations.TryDecodeJudgesTheWindow : Prop :=
  (∀ (n : Nat) (data : List Byte), decode (.pins false true true n data) = .op .tryDecode) ∧
  (∀ s : State, s.fillCount.val < 25 →
    exec .tryDecode s =
      .next { s with result := .decoded { res := .notReady, err := .none, frame := none, ctrl := none } }) ∧
  (∀ (s : State) (b : List Byte), b.length = 25 → s.Holds b → ∃ (t : State) (r : DecodeResult),
    exec .tryDecode s = .next t ∧ t.result = .decoded r ∧ t.fillCount = 0 ∧ AllStale t ∧ SameOutside s t ∧
    (b[0]? ≠ some 0x0F#8 → r = { res := .invalid, err := .headerMismatch, frame := none, ctrl := none }) ∧
    (b[0]? = some 0x0F#8 → b[24]? ≠ some 0x00#8 →
      r = { res := .invalid, err := .footerMismatch, frame := none, ctrl := none }) ∧
    (b[0]? = some 0x0F#8 → b[24]? = some 0x00#8 → ∃ fr : DecodedFrame, fr = unpack (frameOfBytes b) ∧
      r = { res := .frame, err := .none, frame := some fr, ctrl := some (ctrlmap s.config.ctrlKind fr.ch) }))

/-- R97, the corner cases of TRY_DECODE, which the spec derives from R96: (a) any number of them on a buffer that is
not full, (b) the second one after a full buffer, (c) the flag byte does not change the outcome or the controls, (d)
and (e) the state left is that of RESET but for the result, (f) an error is reported exactly with INVALID and only from
a full buffer. -/
def Obligations.TryDecodeCornerCases : Prop :=
  (∀ (k : Nat) (s : State), s.fillCount.val < 25 → ∃ t : State,
    runOps (List.replicate k .tryDecode) s = .next (t, List.replicate k notReadyResult) ∧
    t.fillCount = s.fillCount ∧ t.buf = s.buf ∧ SameOutside s t) ∧
  (∀ s t : State, s.fillCount.val = 25 → exec .tryDecode s = .next t →
    exec .tryDecode t = .next { t with result := notReadyResult }) ∧
  (∀ (s t : State) (b : List Byte) (fl : Byte), b.length = 25 → s.Holds b → b[0]? = some 0x0F#8 →
    b[24]? = some 0x00#8 → t.Holds (b.set 23 fl) → t.config = s.config →
    ∃ (s' t' : State) (r r' : DecodeResult) (c : ControllerState), exec .tryDecode s = .next s' ∧
      exec .tryDecode t = .next t' ∧ s'.result = .decoded r ∧ t'.result = .decoded r' ∧ r.res = .frame ∧
      r'.res = .frame ∧ r.ctrl = some c ∧ r'.ctrl = some c ∧
      r'.frame.map (fun d => [d.ch17, d.ch18, d.frameLost, d.failsafe]) =
        some [fl.getLsbD 0, fl.getLsbD 1, fl.getLsbD 2, fl.getLsbD 3]) ∧
  (∀ s t u : State, s.fillCount.val = 25 → exec .tryDecode s = .next t → exec .reset s = .next u →
    t = { u with result := t.result }) ∧
  (∀ (s t : State) (r : DecodeResult), exec .tryDecode s = .next t → t.result = .decoded r →
    (r.err ≠ .none ↔ r.res = .invalid) ∧ (r.res = .invalid → s.fillCount.val = 25))

/-- R160, R161 and R165: HEADER_MISMATCH is reported by exactly the TRY_DECODE on a full buffer whose byte 0 is not
0x0F, FOOTER_MISMATCH by exactly the one whose byte 0 is 0x0F and whose byte 24 is not 0x00; the codes are 1 and 2, the
kind alone is recorded, and `fill_count` becomes 0. With both bytes wrong the header is reported. -/
def Obligations.FrameErrorsAreExactlyTheMismatches : Prop :=
  (∀ (i : Instr) (s t : State), exec i s = .next t →
    (t.result = invalidResult .headerMismatch ↔
      i = .tryDecode ∧ s.fillCount.val = 25 ∧ ∃ b : Byte, readByte s 0 = .ok b ∧ b ≠ 0x0F#8) ∧
    (t.result = invalidResult .footerMismatch ↔
      i = .tryDecode ∧ s.fillCount.val = 25 ∧ readByte s 0 = .ok 0x0F#8 ∧
        ∃ b : Byte, readByte s 24 = .ok b ∧ b ≠ 0x00#8) ∧
    (∀ r : DecodeResult, t.result = .decoded r → r.err ≠ .none →
      (t.result = invalidResult .headerMismatch ∨ t.result = invalidResult .footerMismatch) ∧ t.fillCount = 0)) ∧
  errCode .none = 0#2 ∧ errCode .headerMismatch = 1#2 ∧ errCode .footerMismatch = 2#2 ∧ resCode .invalid = 2#2

/-- R72, R73, R26 and R28: the result record of TRY_DECODE and the output codes. `err` is not NONE exactly when `res`
is INVALID, `frame` and `ctrl` are present exactly when `res` is FRAME, the code 3 is produced for neither word nor for
a ThreeWay, and the five-bit status output is the count. -/
def Obligations.ResultWordsAreTied : Prop :=
  (∀ (s t : State) (r : DecodeResult), step s = .next t → t.result = .decoded r →
    (r.err ≠ .none ↔ r.res = .invalid) ∧ (r.frame.isSome = true ↔ r.res = .frame) ∧
    (r.ctrl.isSome = true ↔ r.res = .frame)) ∧
  (∀ r : Res, resCode r ≠ 3#2) ∧ (∀ e : Err, errCode e ≠ 3#2) ∧
  resCode .notReady = 0#2 ∧ resCode .frame = 1#2 ∧ resCode .invalid = 2#2 ∧
  buttonCode .released = 0#1 ∧ buttonCode .pressed = 1#1 ∧
  threeWayCode .mid = 0#2 ∧ threeWayCode .up = 1#2 ∧ threeWayCode .down = 2#2 ∧
  (∀ w : ThreeWay, threeWayCode w ≠ 3#2) ∧
  (∀ k : FillCount, (countCode k).toNat = k.val ∧ k.val ≤ 25) ∧ (∀ s : State, statusOut s = s.fillCount)

/-- R100, the end-to-end property, which the spec derives from R94, R96 and R97. From EMPTY, a run of INGESTs and
TRY_DECODEs offers the 25 bytes of a VALID frame in order, no byte beyond the 25th, and no TRY_DECODE after the 25th
byte; then every TRY_DECODE of it returns NOT_READY, every INGEST accepts all it is offered, and the first TRY_DECODE
after it returns FRAME with UNPACK of those bytes. -/
def Obligations.FrameInPiecesDecodes : Prop :=
  ∀ (ops : List Instr) (f : FrameWord) (s : State), s.fillCount = 0 →
    (∀ i ∈ ops, i = .tryDecode ∨ ∃ data : List Byte, i = .ingest data) →
    offered ops = frameBytes f → frameByte f 0 = 0x0F#8 → frameByte f 24 = 0x00#8 →
    (∀ pre post : List Instr, ops = pre ++ .tryDecode :: post → (offered pre).length < 25) →
    ∃ t : State, runOps (ops ++ [.tryDecode]) s =
        .next (t, ops.map starvedResult ++ [frameResult s.config.ctrlKind f]) ∧
      t.fillCount = 0 ∧ SameOutside s t

/-- R101, the recovery property, which the spec derives from R96 and R100. From EMPTY, 25 bytes whose first is not 0x0F
are accepted, in pieces of any sizes, and TRY_DECODE returns INVALID with HEADER_MISMATCH and leaves EMPTY; then the 25
bytes of a VALID frame are accepted, in pieces of any sizes, and TRY_DECODE returns FRAME. -/
def Obligations.RecoveryAfterBadHeader : Prop :=
  ∀ (bad good : List (List Byte)) (f : FrameWord) (s : State), s.fillCount = 0 →
    bad.flatten.length = 25 → bad.flatten[0]? ≠ some 0x0F#8 → good.flatten = frameBytes f →
    frameByte f 0 = 0x0F#8 → frameByte f 24 = 0x00#8 →
    ∃ (t u : State) (as bs : List Result),
      runOps (bad.map .ingest ++ [.tryDecode]) s = .next (t, as ++ [invalidResult .headerMismatch]) ∧
      t.fillCount = 0 ∧ AllStale t ∧
      runOps (good.map .ingest ++ [.tryDecode]) t = .next (u, bs ++ [frameResult s.config.ctrlKind f]) ∧
      u.fillCount = 0

/-- R49 with R79, R98 and R188: FEED of a stream cut as the core cuts it, from EMPTY, returns one result for each 25
bytes in order of arrival, each judged on its own bytes alone; a rejected window costs itself and no other. A stream
with a partial last window is `FeedKeepsAPartialWindow`. FEED is a notation of the spec, and its bound on passes is the
model's own (log entry 16). -/
def Obligations.FeedJudgesEveryWindowInOrder : Prop :=
  ∀ (ws : List FrameWord) (s : State), ws ≠ [] → s.fillCount = 0 →
    ∃ t : State, feed (ws.flatMap frameBytes) s = .next (t, ws.map (windowResult s.config.ctrlKind)) ∧
      t.fillCount = 0 ∧ SameOutside s t

/-- R49 with R79 and R97 (a): FEED of whole windows and then fewer than 25 bytes, from EMPTY, returns the results of
the whole windows and one NOT_READY, and leaves the accumulator holding the bytes of the partial window. FEED's bound
on passes is the model's own (log entry 16). -/
def Obligations.FeedKeepsAPartialWindow : Prop :=
  ∀ (ws : List FrameWord) (part : List Byte) (s : State), part ≠ [] → part.length < 25 → s.fillCount = 0 →
    ∃ t : State, feed (ws.flatMap frameBytes ++ part) s =
        .next (t, ws.map (windowResult s.config.ctrlKind) ++ [notReadyResult]) ∧
      t.Holds part ∧ SameOutside s t

/-- R186, which the spec derives from R96 and R98: of two VALID frames in a row, the window that starts at byte `n` of
the first, for n from 1 to 24, is never VALID for n = 1, is BAD_HEADER for n = 24, and for n from 2 to 23 is VALID
exactly when byte n of the first is 0x0F and byte n - 1 of the second is 0x00. -/
def Obligations.WindowOutOfStep : Prop :=
  ∀ (f g w : FrameWord) (n : Nat), frameByte f 0 = 0x0F#8 → frameByte f 24 = 0x00#8 → frameByte g 0 = 0x0F#8 →
    frameByte g 24 = 0x00#8 → 1 ≤ n → n ≤ 24 →
    w = frameOfBytes ((frameBytes f).drop n ++ (frameBytes g).take n) →
    (n = 1 → classify w ≠ .valid) ∧ (n = 24 → classify w = .badHeader) ∧
    (2 ≤ n → n ≤ 23 → (classify w = .valid ↔ frameByte f n = 0x0F#8 ∧ frameByte g (n - 1) = 0x00#8))

/-- R25 with R21: `fill_count` falls only in RESET and in a TRY_DECODE on a full buffer, and then to 0; it rises only
in INGEST, by the number of accepted bytes. -/
def Obligations.OnlyTheseChangeTheFillCount : Prop :=
  ∀ (i : Instr) (s t : State), exec i s = .next t →
    (t.fillCount.val < s.fillCount.val → t.fillCount = 0 ∧ (i = .reset ∨ (i = .tryDecode ∧ s.fillCount.val = 25))) ∧
    (s.fillCount.val < t.fillCount.val → ∃ data : List Byte, i = .ingest data ∧
      t.fillCount.val = s.fillCount.val + min data.length (25 - s.fillCount.val))

/-! ### Invariants and what cannot be seen -/

/-- The state after reset meets the invariant. -/
def Obligations.InvHoldsAtReset : Prop := State.reset.Inv

/-- R22 (which the spec derives) and R23: every step from a state that meets the invariant leaves one that meets it:
the buffer in canonical form, its valid bytes exactly those below `fill_count`, and `fill_count` at most 25. -/
def Obligations.StepKeepsInv : Prop :=
  ∀ s t : State, s.Inv → step s = .next t → t.Inv ∧ t.fillCount.val ≤ 25

/-- R162: from a state that meets the invariant no step faults, and a step whose request is an operation within
INGEST_MAX, on operands the spec gives a result for, or is idle, or is absent, has a next state. -/
def Obligations.GoodStatesGoOn : Prop :=
  ∀ s : State, s.Inv →
    (∀ e : Fault, step s ≠ .fault e) ∧
    (s.inputs = [] → ∃ t : State, step s = .next t) ∧
    (∀ (r : Request) (rest : List Request), s.inputs = r :: rest →
      (decode r = .idle ∨ ∃ i : Instr, decode r = .op i ∧ i.wf s.config = true ∧ Runnable i) →
      ∃ t : State, step s = .next t)

/-- Each step takes one request and leaves the parameters as they are (log entries 1, 5 and 6). -/
def Obligations.StepTakesOneRequest : Prop :=
  ∀ s t : State, step s = .next t → t.inputs = s.inputs.tail ∧ t.config = s.config

/-- R23, R27 and R30: two states that agree on `fill_count`, the valid bytes, the requests and the parameters run alike
for any number of steps, whatever their stale bytes and last results are: they stop alike, and go on to states that
agree and, after at least one step, hold the same result. -/
def Obligations.StaleBytesAndOldResultsAreNeverSeen : Prop :=
  ∀ (k : Nat) (s s' : State), Agree s s' →
    match Sys2Proof.core.run k s, Sys2Proof.core.run k s' with
    | .next t, .next t' => Agree t t' ∧ (0 < k → t'.result = t.result)
    | .fault e, .fault e' => e = e'
    | .refused e, .refused e' => e = e'
    | _, _ => False

/-- R70: the pure operations complete on every operand the spec gives a result for, change nothing, and their result
depends on the operands and the parameters alone. -/
def Obligations.PureOperationsTouchNoState : Prop :=
  ∀ (i : Instr) (s : State), IsPure i → Runnable i → ∃ r : Result,
    ∀ t : State, t.config = s.config → exec i t = .next { t with result := r }

/-! ### CLASSIFY and UNPACK -/

/-- R95, CLASSIFY, for its three rows: it completes from every state, changes nothing, and returns BAD_HEADER when byte
0 is not 0x0F, otherwise BAD_FOOTER when byte 24 is not 0x00, otherwise VALID; the 23 bytes between are not looked at,
nor the footer under a wrong header. -/
def Obligations.ClassifyReadsHeaderThenFooter : Prop :=
  (∀ (f : FrameWord) (s : State), ∃ c : FrameClass,
    exec (.classifyValid f) s = .next { s with result := .frameClass c } ∧
    exec (.classifyBadFooter f) s = .next { s with result := .frameClass c } ∧
    exec (.classifyBadHeader f) s = .next { s with result := .frameClass c } ∧
    (f.extractLsb' 0 8 ≠ 0x0F#8 → c = .badHeader) ∧
    (f.extractLsb' 0 8 = 0x0F#8 → f.extractLsb' 192 8 ≠ 0x00#8 → c = .badFooter) ∧
    (f.extractLsb' 0 8 = 0x0F#8 → f.extractLsb' 192 8 = 0x00#8 → c = .valid)) ∧
  (∀ f g : FrameWord, f.extractLsb' 0 8 = g.extractLsb' 0 8 →
    (f.extractLsb' 0 8 = 0x0F#8 → f.extractLsb' 192 8 = g.extractLsb' 192 8) → classify f = classify g)

/-- R114, which the spec derives from R113 and R42: the byte formulas of GROUP and the bit-stream definition give the
same channels for every group value: channel i is `S[11*i + 10 : 11*i]` where `S = b0 + (b1 << 8) + ... + (b10 << 80)`.
-/
def Obligations.GroupFormulasAreTheBitStream : Prop :=
  ∀ (b : Vector Byte 11) (S : Nat),
    S = b[0].toNat + (b[1].toNat <<< 8) + (b[2].toNat <<< 16) + (b[3].toNat <<< 24) + (b[4].toNat <<< 32) +
      (b[5].toNat <<< 40) + (b[6].toNat <<< 48) + (b[7].toNat <<< 56) + (b[8].toNat <<< 64) + (b[9].toNat <<< 72) +
      (b[10].toNat <<< 80) →
    ∀ (i : Nat) (h : i < 8),
      (group b[0].toNat b[1].toNat b[2].toNat b[3].toNat b[4].toNat b[5].toNat b[6].toNat b[7].toNat b[8].toNat
        b[9].toNat b[10].toNat)[i].toNat = S / 2 ^ (11 * i) % 2 ^ 11

/-- R112, with the flags of R62 and the channel fields of R63, which the spec derives from R42 and R61. UNPACK: it
completes from every state, changes nothing, channel j is the field of `F` that starts at bit 8 + 11*j for j below 8
and at bit 96 + 11*(j - 8) above, and the flags are bits 184 to 187. -/
def Obligations.UnpackReadsTheFields : Prop :=
  ∀ (f : FrameWord) (s : State), ∃ d : DecodedFrame,
    exec (.unpack f) s = .next { s with result := .unpacked d } ∧
    (∀ (j : Nat) (h : j < 16), d.ch[j] = f.extractLsb' (if j < 8 then 8 + 11 * j else 96 + 11 * (j - 8)) 11) ∧
    d.ch17 = f.getLsbD 184 ∧ d.ch18 = f.getLsbD 185 ∧ d.frameLost = f.getLsbD 186 ∧ d.failsafe = f.getLsbD 187

/-- R65, what is not checked: frames with the same header and footer have the same class whatever their other 184 bits
are, and frames that differ only in the reserved bits 191:188 unpack alike. -/
def Obligations.OnlyHeaderAndFooterAreChecked : Prop :=
  (∀ f g : FrameWord, f.extractLsb' 0 8 = g.extractLsb' 0 8 → f.extractLsb' 192 8 = g.extractLsb' 192 8 →
    classify f = classify g) ∧
  (∀ f g : FrameWord, (∀ k : Nat, k < 188 ∨ 192 ≤ k → f.getLsbD k = g.getLsbD k) → unpack f = unpack g)

/-- R116 (c) and (d), which the spec derives from R112, R113 and R115: two frames unpack to the same channels exactly
when their bytes 1 to 22 are equal, to the same first eight exactly when bytes 1 to 11 are, to the same last eight
exactly when bytes 12 to 22 are, and a flag depends on its own bit alone. -/
def Obligations.ChannelsDetermineThePayload : Prop :=
  ∀ f g : FrameWord,
    ((unpack f).ch = (unpack g).ch ↔ ∀ n : Nat, 1 ≤ n → n ≤ 22 → frameByte f n = frameByte g n) ∧
    ((∀ (j : Nat) (h : j < 8), (unpack f).ch[j] = (unpack g).ch[j]) ↔
      ∀ n : Nat, 1 ≤ n → n ≤ 11 → frameByte f n = frameByte g n) ∧
    ((∀ (j : Nat) (h : j < 16), 8 ≤ j → (unpack f).ch[j] = (unpack g).ch[j]) ↔
      ∀ n : Nat, 12 ≤ n → n ≤ 22 → frameByte f n = frameByte g n) ∧
    ((unpack f).ch17 = (unpack g).ch17 ↔ f.getLsbD 184 = g.getLsbD 184) ∧
    ((unpack f).ch18 = (unpack g).ch18 ↔ f.getLsbD 185 = g.getLsbD 185) ∧
    ((unpack f).frameLost = (unpack g).frameLost ↔ f.getLsbD 186 = g.getLsbD 186) ∧
    ((unpack f).failsafe = (unpack g).failsafe ↔ f.getLsbD 187 = g.getLsbD 187)

/-- R119, the round trip, which the spec derives from R112, R114 and R42: for all channel values and every flag byte,
PACK gives a VALID frame that unpacks to those channels and to bits 0 to 3 of the flag byte, with the header first and
the footer last. -/
def Obligations.UnpackOfPack : Prop :=
  ∀ (ch : Channels) (fl : Byte),
    classify (pack ch fl) = .valid ∧ (unpack (pack ch fl)).ch = ch ∧
    (unpack (pack ch fl)).ch17 = fl.getLsbD 0 ∧ (unpack (pack ch fl)).ch18 = fl.getLsbD 1 ∧
    (unpack (pack ch fl)).frameLost = fl.getLsbD 2 ∧ (unpack (pack ch fl)).failsafe = fl.getLsbD 3 ∧
    frameByte (pack ch fl) 0 = 0x0F#8 ∧ frameByte (pack ch fl) 23 = fl ∧ frameByte (pack ch fl) 24 = 0x00#8

/-! ### The calibrator -/

/-- R110, CHVAL: it completes from every state, changes nothing, and returns the low eleven bits of its input; on every
non-negative integer it is the remainder by 2048, the identity exactly on 0 to 2047, and idempotent. -/
def Obligations.ChvalKeepsTheLowElevenBits : Prop :=
  (∀ (raw : RawWord) (s : State),
    exec (.chval raw) s = .next { s with result := .channel (raw.extractLsb' 0 11) }) ∧
  (∀ v : Nat, (chval v).toNat = v % 2048 ∧ (chval v).toNat = v &&& 0x7FF ∧ ((chval v).toNat = v ↔ v ≤ 2047) ∧
    chval (chval v).toNat = chval v)

/-- R132, the integer form of AXIS, which the spec derives from R131: it completes from every state, changes nothing,
and with d = raw - 1000 returns +0.0 for |d| at most 15, 1.0 for d at least 800, -1.0 for d at most -800, and otherwise
d/800 rounded once; in every case it is the rounding of `axis_q`. The arithmetic is the spec's decision D10 (log entry
7). -/
def Obligations.AxisIntegerForm : Prop :=
  ∀ (raw : Channel) (s : State) (d : Int), d = (raw.toNat : Int) - 1000 → ∃ p : F32,
    exec (.axis raw) s = .next { s with result := .axis p } ∧
    (|d| ≤ 15 → p = 0x00000000#32 ∧ axisQ raw.toNat = 0) ∧
    (800 ≤ d → p = 0x3F800000#32 ∧ axisQ raw.toNat = 1) ∧
    (d ≤ -800 → p = 0xBF800000#32 ∧ axisQ raw.toNat = -1) ∧
    (15 < |d| → |d| < 800 → p = f32 d 800 ∧ axisQ raw.toNat = (d : Rat) / 800) ∧
    p = f32 (axisQ raw.toNat).num (axisQ raw.toNat).den

/-- R131 with R15: the value of AXIS is the binary32 nearest `axis_q`: every finite binary32 of another value lies
strictly farther from it, so no tie arises (log entry 7). -/
def Obligations.AxisIsTheNearestBinary32 : Prop :=
  ∀ (raw : Channel) (p : F32), f32Finite (axis raw.toNat) = true ∧
    (f32Finite p = true → f32Value p ≠ f32Value (axis raw.toNat) →
      |f32Value (axis raw.toNat) - axisQ raw.toNat| < |f32Value p - axisQ raw.toNat|)

/-- R133 (c), (e), (f), which the spec derives from R131 and R132, and R74: AXIS values are finite and between -1.0 and
1.0, a zero is always +0.0, AXIS is odd about 1000, non-decreasing in raw, and increasing on 200 to 984 and on 1016 to
1800. -/
def Obligations.AxisShape : Prop :=
  (∀ raw : Channel, f32Finite (axis raw.toNat) = true ∧ -1 ≤ f32Value (axis raw.toNat) ∧
    f32Value (axis raw.toNat) ≤ 1 ∧ (f32Value (axis raw.toNat) = 0 → axis raw.toNat = 0x00000000#32)) ∧
  (∀ t : Nat, t ≤ 1000 → f32Value (axis (1000 + t)) = -f32Value (axis (1000 - t))) ∧
  (∀ x y : Channel, x.toNat ≤ y.toNat → f32Value (axis x.toNat) ≤ f32Value (axis y.toNat)) ∧
  (∀ x y : Channel, x.toNat < y.toNat →
    (200 ≤ x.toNat ∧ y.toNat ≤ 984) ∨ (1016 ≤ x.toNat ∧ y.toNat ≤ 1800) →
    f32Value (axis x.toNat) < f32Value (axis y.toNat))

/-- R134, BUTTON: it completes from every state, changes nothing, and returns Pressed exactly when raw is strictly
greater than 1000. -/
def Obligations.ButtonIsStrictlyAboveThreshold : Prop :=
  ∀ (raw : Channel) (s : State), ∃ b : Button, exec (.button raw) s = .next { s with result := .button b } ∧
    (b = .pressed ↔ 1000 < raw.toNat) ∧ (b = .released ↔ raw.toNat ≤ 1000)

/-- R136, THREEWAY (R137 is its consequence by the spec's own derivation): it completes from every state, changes
nothing, and returns Up exactly for 1800, Down exactly for 200, and Mid for every other value. -/
def Obligations.ThreewayMatchesExactly : Prop :=
  ∀ (raw : Channel) (s : State), ∃ w : ThreeWay, exec (.threeway raw) s = .next { s with result := .threeWay w } ∧
    (w = .up ↔ raw.toNat = 1800) ∧ (w = .down ↔ raw.toNat = 200) ∧
    (w = .mid ↔ raw.toNat ≠ 1800 ∧ raw.toNat ≠ 200)

/-- R138, AXEQ, with the tolerance the spec takes from general knowledge (G2) and its own choice of an exact difference
(D11): on finite operands it completes from every state, changes nothing, and returns true exactly when the
exact difference of the two numbers is at most 2^-23 (log entry 8). -/
def Obligations.AxeqIsTheToleranceEquality : Prop :=
  ∀ (a b : F32) (s : State), a.extractLsb' 23 8 ≠ 255#8 → b.extractLsb' 23 8 ≠ 255#8 →
    exec (.axeq a b) s =
      .next { s with result := .axisEqual (decide (|f32Value a - f32Value b| ≤ (1 : Rat) / 2 ^ 23)) }

/-- R139 (a) to (c), which the spec derives from R133 and R138: AXEQ is reflexive and symmetric on finite operands,
holds of +0.0 and -0.0, and on the values AXIS produces it is equality of patterns. -/
def Obligations.AxeqOnAxisValuesIsEquality : Prop :=
  (∀ a b : F32, f32Finite a = true → f32Finite b = true → axeq a a = true ∧ axeq a b = axeq b a) ∧
  axeq 0x00000000#32 0x80000000#32 = true ∧
  (∀ x y : Channel, axeq (axis x.toNat) (axis y.toNat) = true ↔ axis x.toNat = axis y.toNat)

/-- R140, CTRLMAP: it completes from every state, changes nothing, and returns the record of the fixed assignment
table, under every CTRL_KIND; the left stick takes y from channel 2 and x from channel 3. -/
def Obligations.CtrlmapAssignsTheChannels : Prop :=
  ∀ (ch : Channels) (s : State), ∃ c : ControllerState,
    exec (.ctrlmap ch) s = .next { s with result := .controls c } ∧
    c.rightThumb.x = axis ch[0].toNat ∧ c.rightThumb.y = axis ch[1].toNat ∧
    c.leftThumb.y = axis ch[2].toNat ∧ c.leftThumb.x = axis ch[3].toNat ∧
    (∀ (k : ControlKind) (v : ControlValue) (j : Fin 16),
      (k = s.config.ctrlKind.rightTrigger ∧ v = c.rightTrigger ∧ j = 4) ∨
      (k = s.config.ctrlKind.rightShoulder ∧ v = c.rightShoulder ∧ j = 5) ∨
      (k = s.config.ctrlKind.leftTrigger ∧ v = c.leftTrigger ∧ j = 6) ∨
      (k = s.config.ctrlKind.leftShoulder ∧ v = c.leftShoulder ∧ j = 7) →
      (k = .axis → v = .axis (axis ch[j].toNat)) ∧ (k = .button → v = .button (button ch[j].toNat)) ∧
      (k = .threeWay → v = .threeWay (threeWay ch[j].toNat)))

/-- R142 (a) and (b), which the spec derives from R140: channels 8 to 15 have no effect on the Controller State, and
each field depends on one channel alone: changing one of the first eight channels changes no field but its own. -/
def Obligations.CtrlmapFieldsAreIndependent : Prop :=
  (∀ (kind : CtrlKind) (ch ch' : Channels), (∀ (j : Nat) (h : j < 8), ch[j] = ch'[j]) →
    ctrlmap kind ch = ctrlmap kind ch') ∧
  (∀ (kind : CtrlKind) (ch : Channels) (v : Channel),
    ctrlmap kind (ch.set 0 v) =
      { ctrlmap kind ch with rightThumb := { (ctrlmap kind ch).rightThumb with x := axis v.toNat } } ∧
    ctrlmap kind (ch.set 1 v) =
      { ctrlmap kind ch with rightThumb := { (ctrlmap kind ch).rightThumb with y := axis v.toNat } } ∧
    ctrlmap kind (ch.set 2 v) =
      { ctrlmap kind ch with leftThumb := { (ctrlmap kind ch).leftThumb with y := axis v.toNat } } ∧
    ctrlmap kind (ch.set 3 v) =
      { ctrlmap kind ch with leftThumb := { (ctrlmap kind ch).leftThumb with x := axis v.toNat } } ∧
    ctrlmap kind (ch.set 4 v) = { ctrlmap kind ch with rightTrigger := cal kind.rightTrigger v.toNat } ∧
    ctrlmap kind (ch.set 5 v) = { ctrlmap kind ch with rightShoulder := cal kind.rightShoulder v.toNat } ∧
    ctrlmap kind (ch.set 6 v) = { ctrlmap kind ch with leftTrigger := cal kind.leftTrigger v.toNat } ∧
    ctrlmap kind (ch.set 7 v) = { ctrlmap kind ch with leftShoulder := cal kind.leftShoulder v.toNat })
end

