-- ==== Sys2Proof/Laws/State.lean ====
section
/-! SUPPORT. One lemma per field per update of the state, each true by definition. -/

namespace Sys2Proof.Machine

@[simp] theorem discard_fillCount (s : State) : (discard s).fillCount = 0 := rfl
@[simp] theorem discard_buf (s : State) : (discard s).buf = [] := rfl
@[simp] theorem discard_inputs (s : State) : (discard s).inputs = s.inputs := rfl
@[simp] theorem discard_result (s : State) : (discard s).result = s.result := rfl
@[simp] theorem discard_config (s : State) : (discard s).config = s.config := rfl

@[simp] theorem append_fillCount (s : State) (k : FillCount) (bs : List Byte) :
    (append s k bs).fillCount = advance s.fillCount k := rfl
@[simp] theorem append_buf (s : State) (k : FillCount) (bs : List Byte) :
    (append s k bs).buf = Memory.writeList s.buf s.fillCount.val bs := rfl
@[simp] theorem append_inputs (s : State) (k : FillCount) (bs : List Byte) : (append s k bs).inputs = s.inputs := rfl
@[simp] theorem append_result (s : State) (k : FillCount) (bs : List Byte) : (append s k bs).result = s.result := rfl
@[simp] theorem append_config (s : State) (k : FillCount) (bs : List Byte) : (append s k bs).config = s.config := rfl

@[simp] theorem present_fillCount (r : Request) (s : State) : (present r s).fillCount = s.fillCount := rfl
@[simp] theorem present_buf (r : Request) (s : State) : (present r s).buf = s.buf := rfl
@[simp] theorem present_inputs (r : Request) (s : State) : (present r s).inputs = r :: s.inputs := rfl
@[simp] theorem present_result (r : Request) (s : State) : (present r s).result = s.result := rfl
@[simp] theorem present_config (r : Request) (s : State) : (present r s).config = s.config := rfl

@[simp] theorem reset_fillCount : State.reset.fillCount = 0 := rfl
@[simp] theorem reset_buf : State.reset.buf = [] := rfl
@[simp] theorem reset_inputs : State.reset.inputs = [] := rfl
@[simp] theorem reset_result : State.reset.result = .nothing := rfl

/-- An answer is a next state, and the only one it is. -/
theorem answer_eq_next {r : Result} {s t : State} : answer r s = .next t ↔ t = { s with result := r } := by
  simp [answer, eq_comm]

end Sys2Proof.Machine
end

