-- ==== Sys2Proof/Laws/Operands.lean ====
section
/-! SUPPORT. Byte lists, words and channel lists: lengths, bounds, and each the inverse of the other. -/

namespace Sys2Proof.Machine

@[simp] theorem natToBytes_length (k v : Nat) : (natToBytes k v).length = k := by
  induction k generalizing v with
  | zero => rfl
  | succ k ih => simp [natToBytes, ih]

theorem bytesToNat_lt (bs : List Byte) : bytesToNat bs < 2 ^ (8 * bs.length) := by
  induction bs with
  | nil => simp [bytesToNat]
  | cons b bs ih =>
    have hb := b.isLt
    have hp : (2 : Nat) ^ (8 * (bs.length + 1)) = 256 * 2 ^ (8 * bs.length) := by
      rw [Nat.mul_add, Nat.pow_add, Nat.mul_comm]
    simp only [bytesToNat, List.length_cons, hp]
    omega

theorem bytesToNat_natToBytes (k v : Nat) : bytesToNat (natToBytes k v) = v % 2 ^ (8 * k) := by
  induction k generalizing v with
  | zero => simp [natToBytes, bytesToNat, Nat.mod_one]
  | succ k ih =>
    have hp : (2 : Nat) ^ (8 * (k + 1)) = 256 * 2 ^ (8 * k) := by
      rw [Nat.mul_add, Nat.pow_add, Nat.mul_comm]
    simp only [natToBytes, bytesToNat, ih, BitVec.toNat_ofNat, hp, Nat.mod_mul]

theorem natToBytes_bytesToNat (bs : List Byte) : natToBytes bs.length (bytesToNat bs) = bs := by
  induction bs with
  | nil => rfl
  | cons b bs ih =>
    have hb := b.isLt
    have h1 : (b.toNat + 256 * bytesToNat bs) / 256 = bytesToNat bs := by omega
    have h2 : BitVec.ofNat 8 (b.toNat + 256 * bytesToNat bs) = b := by
      apply BitVec.eq_of_toNat_eq
      simp only [BitVec.toNat_ofNat]
      omega
    simp only [List.length_cons, natToBytes, bytesToNat, h1, h2, ih]

/-- Byte i of a list is the i-th byte of its number. -/
theorem bytesToNat_div (bs : List Byte) (i : Nat) :
    bytesToNat bs / 2 ^ (8 * i) % 256 = (bs.getD i 0#8).toNat := by
  induction bs generalizing i with
  | nil => simp [bytesToNat]
  | cons b bs ih =>
    have hb := b.isLt
    cases i with
    | zero => simp only [bytesToNat, List.getD_cons_zero, Nat.mul_zero, Nat.pow_zero, Nat.div_one]; omega
    | succ i =>
      have h1 : (b.toNat + 256 * bytesToNat bs) / 256 = bytesToNat bs := by omega
      have hp : (2 : Nat) ^ (8 * (i + 1)) = 256 * 2 ^ (8 * i) := by
        rw [Nat.mul_add, Nat.pow_add, Nat.mul_comm]
      rw [hp, bytesToNat, ← Nat.div_div_eq_div_mul, h1, ih, List.getD_cons_succ]

theorem natToBytes_getD (k v i : Nat) :
    (natToBytes k v).getD i 0#8 = if i < k then BitVec.ofNat 8 (v / 2 ^ (8 * i)) else 0#8 := by
  induction k generalizing v i with
  | zero => simp [natToBytes]
  | succ k ih =>
    cases i with
    | zero => simp [natToBytes]
    | succ i =>
      have hp : (2 : Nat) ^ (8 * (i + 1)) = 256 * 2 ^ (8 * i) := by
        rw [Nat.mul_add, Nat.pow_add, Nat.mul_comm]
      simp only [natToBytes, List.getD_cons_succ, ih, hp, ← Nat.div_div_eq_div_mul, Nat.add_lt_add_iff_right]

theorem frameByte_toNat (f : FrameWord) (i : Nat) : (frameByte f i).toNat = f.toNat / 2 ^ (8 * i) % 256 := by
  simp [frameByte, BitVec.extractLsb'_toNat, Nat.shiftRight_eq_div_pow]

/-- Byte i of the frame word of a list is the i-th byte of the list. -/
theorem frameByte_frameOfBytes {bs : List Byte} (h : bs.length = 25) (i : Nat) :
    frameByte (frameOfBytes bs) i = bs.getD i 0#8 := by
  have hlt := bytesToNat_lt bs
  rw [h] at hlt
  apply BitVec.eq_of_toNat_eq
  rw [frameByte_toNat, ← bytesToNat_div, frameOfBytes, BitVec.toNat_ofNat, Nat.mod_eq_of_lt hlt]

@[simp] theorem frameBytes_length (f : FrameWord) : (frameBytes f).length = 25 := natToBytes_length _ _

@[simp] theorem frameOfBytes_frameBytes (f : FrameWord) : frameOfBytes (frameBytes f) = f := by
  apply BitVec.eq_of_toNat_eq
  have h := f.isLt
  simp only [frameOfBytes, frameBytes, bytesToNat_natToBytes, BitVec.toNat_ofNat, frameLen]
  rw [Nat.mod_eq_of_lt (Nat.mod_lt _ (by norm_num)), Nat.mod_eq_of_lt h]

theorem frameBytes_frameOfBytes {bs : List Byte} (h : bs.length = 25) : frameBytes (frameOfBytes bs) = bs := by
  have hlt := bytesToNat_lt bs
  rw [h] at hlt
  have := natToBytes_bytesToNat bs
  rw [h] at this
  rw [frameBytes, frameOfBytes, BitVec.toNat_ofNat, Nat.mod_eq_of_lt hlt, frameLen, this]

theorem frameBytes_getD (f : FrameWord) (i : Nat) : (frameBytes f).getD i 0#8 = frameByte f i := by
  rw [← frameByte_frameOfBytes (frameBytes_length f) i, frameOfBytes_frameBytes]

theorem channelsToNat_lt (cs : List Channel) : channelsToNat cs < 2 ^ (11 * cs.length) := by
  induction cs with
  | nil => simp [channelsToNat]
  | cons c cs ih =>
    have hc := c.isLt
    have hp : (2 : Nat) ^ (11 * (cs.length + 1)) = 2048 * 2 ^ (11 * cs.length) := by
      rw [Nat.mul_add, Nat.pow_add, Nat.mul_comm]
    simp only [channelsToNat, List.length_cons, hp, chBits]
    omega

/-- Channel i of a list is the i-th eleven-bit field of its number. -/
theorem channelsToNat_div (cs : List Channel) (i : Nat) :
    channelsToNat cs / 2 ^ (11 * i) % 2048 = (cs.getD i 0#11).toNat := by
  induction cs generalizing i with
  | nil => simp [channelsToNat]
  | cons c cs ih =>
    have hc := c.isLt
    cases i with
    | zero => simp only [channelsToNat, chBits, List.getD_cons_zero, Nat.mul_zero, Nat.pow_zero, Nat.div_one]; omega
    | succ i =>
      have h1 : (c.toNat + 2 ^ 11 * channelsToNat cs) / 2048 = channelsToNat cs := by omega
      have hp : (2 : Nat) ^ (11 * (i + 1)) = 2048 * 2 ^ (11 * i) := by
        rw [Nat.mul_add, Nat.pow_add, Nat.mul_comm]
      rw [hp, channelsToNat, chBits, ← Nat.div_div_eq_div_mul, h1, ih, List.getD_cons_succ]

/-- The channels of the word of sixteen channels are those channels. -/
theorem channelsOfWord_wordOfChannels (ch : Channels) : channelsOfWord (wordOfChannels ch) = ch := by
  have hlt := channelsToNat_lt ch.toList
  simp only [Vector.length_toList] at hlt
  ext j hj : 1
  apply BitVec.eq_of_toNat_eq
  have h := channelsToNat_div ch.toList j
  have hg : (ch.toList.getD j 0#11) = ch[j] := by
    rw [List.getD_eq_getElem _ _ (by simpa using hj)]
    simp
  rw [hg] at h
  simp only [channelsOfWord, wordOfChannels, Vector.getElem_ofFn, BitVec.extractLsb'_toNat, BitVec.toNat_ofNat,
    Nat.shiftRight_eq_div_pow, chBits]
  rw [Nat.mod_eq_of_lt hlt]
  exact h

end Sys2Proof.Machine
end

