-- ==== Sys2Proof/Laws/Memory.lean ====
section
/-! SUPPORT. What the operations over the buffer do: read after write, every other byte as before, and the canonical
form kept. -/

namespace Sys2Proof.Machine

theorem Memory.read_write_same (m : Memory) (a : Nat) (b : Byte) : Memory.read (Memory.write m a b) a = some b := by
  induction m with
  | nil => simp [Memory.write, Memory.read]
  | cons c m ih =>
    obtain ⟨k, v⟩ := c
    simp only [Memory.write]
    split
    · simp [Memory.read]
    · split
      · simp [Memory.read]
      · have h : k ≠ a := by omega
        simp [Memory.read, h, ih]

theorem Memory.read_write_other (m : Memory) {a c : Nat} (b : Byte) (h : c ≠ a) :
    Memory.read (Memory.write m a b) c = Memory.read m c := by
  induction m with
  | nil => simp [Memory.write, Memory.read, Ne.symm h]
  | cons d m ih =>
    obtain ⟨k, v⟩ := d
    simp only [Memory.write]
    split
    · simp [Memory.read, Ne.symm h]
    · split
      · rename_i h1 h2
        subst h2
        simp [Memory.read, Ne.symm h]
      · simp only [Memory.read, ih]

/-- A list written from `a` on is read back byte by byte, and every offset outside it reads as before. -/
theorem Memory.read_writeList (bs : List Byte) (m : Memory) (a c : Nat) :
    Memory.read (Memory.writeList m a bs) c =
      if a ≤ c ∧ c < a + bs.length then bs[c - a]? else Memory.read m c := by
  induction bs generalizing m a with
  | nil =>
    have h : ¬ (a ≤ c ∧ c < a) := by omega
    simp [Memory.writeList, h]
  | cons b bs ih =>
    simp only [Memory.writeList, ih, List.length_cons]
    by_cases h0 : c = a
    · subst h0
      simp [Memory.read_write_same]
    · rw [Memory.read_write_other _ _ h0]
      by_cases h1 : a + 1 ≤ c ∧ c < a + 1 + bs.length
      · have h2 : a ≤ c ∧ c < a + (bs.length + 1) := by omega
        obtain ⟨d, hd⟩ : ∃ d, c - a = d + 1 := ⟨c - a - 1, by omega⟩
        have h3 : c - (a + 1) = d := by omega
        simp [h1, h2, hd, h3]
      · have h2 : ¬ (a ≤ c ∧ c < a + (bs.length + 1)) := by omega
        rw [if_neg h1, if_neg h2]

theorem Memory.wfFrom_write (m : Memory) {lo a : Nat} (b : Byte) (hm : Memory.wfFrom lo m = true) (hlo : lo ≤ a)
    (ha : a < frameLen) : Memory.wfFrom lo (Memory.write m a b) = true := by
  induction m generalizing lo with
  | nil => simp [Memory.write, Memory.wfFrom, hlo, ha]
  | cons c m ih =>
    obtain ⟨k, v⟩ := c
    simp only [Memory.wfFrom, Bool.and_eq_true, decide_eq_true_eq] at hm
    obtain ⟨⟨h1, h2⟩, h3⟩ := hm
    simp only [Memory.write]
    split
    · rename_i h
      have hk : a + 1 ≤ k := h
      simp [Memory.wfFrom, hlo, ha, hk, h2, h3]
    · split
      · rename_i h
        subst h
        simp [Memory.wfFrom, hlo, ha, h3]
      · have hk : k + 1 ≤ a := by omega
        simp [Memory.wfFrom, h1, h2, ih h3 hk]

/-- Storing a byte below FRAME_LEN keeps the canonical form. -/
theorem Memory.wf_write {m : Memory} {a : Nat} (b : Byte) (hm : Memory.wf m = true) (ha : a < frameLen) :
    Memory.wf (Memory.write m a b) = true :=
  Memory.wfFrom_write m b hm (Nat.zero_le a) ha

/-- Storing a list that ends below FRAME_LEN keeps the canonical form. -/
theorem Memory.wf_writeList (bs : List Byte) {m : Memory} {a : Nat} (hm : Memory.wf m = true)
    (h : a + bs.length ≤ frameLen) : Memory.wf (Memory.writeList m a bs) = true := by
  induction bs generalizing m a with
  | nil => simpa [Memory.writeList] using hm
  | cons b bs ih =>
    simp only [List.length_cons] at h
    exact ih (Memory.wf_write b hm (by omega)) (by omega)

theorem Memory.wf_nil : Memory.wf [] = true := rfl

/-- The empty buffer is canonical, and no offset of it holds a value. -/
@[simp] theorem Memory.read_nil (a : Nat) : Memory.read [] a = none := rfl

end Sys2Proof.Machine
end

