-- ==== Sys2Proof/Laws/Ops.lean ====
section
/-! SUPPORT. What the shared operations do, one lemma each: counting, reading bytes and the window, and the error
entry. -/

namespace Sys2Proof.Machine

@[simp] theorem acceptedOf_val (fill : FillCount) (n : Nat) : (acceptedOf fill n).val = min n (25 - fill.val) := by
  simp only [acceptedOf, frameLen]

@[simp] theorem advance_val (fill k : FillCount) : (advance fill k).val = min 25 (fill.val + k.val) := by
  simp only [advance, frameLen]

theorem advance_acceptedOf (fill : FillCount) (n : Nat) :
    (advance fill (acceptedOf fill n)).val = fill.val + min n (25 - fill.val) := by
  have := fill.isLt
  simp only [advance_val, acceptedOf_val]
  omega

/-- Nothing is accepted when nothing is offered or nothing fits. -/
theorem acceptedOf_eq_zero {fill : FillCount} {n : Nat} (h : n = 0 ∨ fill.val = 25) : acceptedOf fill n = 0 := by
  apply Fin.ext
  rw [acceptedOf_val]
  rcases h with h | h <;> simp [h]

@[simp] theorem advance_zero (fill : FillCount) : advance fill 0 = fill := by
  have := fill.isLt
  apply Fin.ext
  simp only [advance_val, Fin.val_zero, Nat.add_zero]
  omega

/-- Appending no bytes changes nothing. -/
@[simp] theorem append_zero (s : State) (data : List Byte) : append s 0 (data.take (0 : FillCount).val) = s := by
  simp [append, Memory.writeList]

/-- What INGEST leaves at an offset: the accepted byte that was stored there, or the byte as it was. -/
theorem read_append (s : State) (data : List Byte) (c : Nat) :
    Memory.read (append s (acceptedOf s.fillCount data.length)
        (data.take (acceptedOf s.fillCount data.length).val)).buf c =
      if s.fillCount.val ≤ c ∧ c < s.fillCount.val + min data.length (25 - s.fillCount.val) then
        data[c - s.fillCount.val]?
      else Memory.read s.buf c := by
  rw [append_buf, Memory.read_writeList, List.length_take, acceptedOf_val]
  by_cases h : s.fillCount.val ≤ c ∧ c < s.fillCount.val + min data.length (25 - s.fillCount.val)
  · rw [if_pos h, if_pos (by omega), List.getElem?_take_of_lt (by omega)]
  · rw [if_neg h, if_neg (by omega)]

/-- A byte is read exactly when it lies below `fill_count` and holds a value. -/
theorem readByte_eq_ok {s : State} {a : Nat} {b : Byte} :
    readByte s a = .ok b ↔ a < s.fillCount.val ∧ Memory.read s.buf a = some b := by
  unfold readByte
  split
  · rename_i h
    cases hr : Memory.read s.buf a <;> simp [h]
  · rename_i h
    simp [h]

/-- Everything else is the stale-byte fault. -/
theorem readByte_cases (s : State) (a : Nat) :
    (∃ b, readByte s a = .ok b ∧ a < s.fillCount.val ∧ Memory.read s.buf a = some b) ∨
      (readByte s a = .error (.staleByte a) ∧ (s.fillCount.val ≤ a ∨ Memory.read s.buf a = none)) := by
  unfold readByte
  split
  · rename_i h
    cases hr : Memory.read s.buf a <;> simp [h]
  · rename_i h
    exact .inr ⟨rfl, .inl (by omega)⟩

/-- Reading a run of bytes gives exactly the bytes that stand there. -/
theorem readBytes_eq_ok {s : State} {n a : Nat} {bs : List Byte} :
    readBytes s n a = .ok bs ↔ bs.length = n ∧ ∀ i : Nat, i < n → readByte s (a + i) = .ok (bs.getD i 0#8) := by
  induction n generalizing a bs with
  | zero => cases bs <;> simp [readBytes]
  | succ n ih =>
    simp only [readBytes]
    constructor
    · intro h
      split at h
      · cases h
      · rename_i b hb
        split at h
        · cases h
        · rename_i bs' hbs
          cases h
          obtain ⟨hl, hr⟩ := ih.mp hbs
          refine ⟨by simp [hl], fun i hi => ?_⟩
          cases i with
          | zero => simpa using hb
          | succ i =>
            have := hr i (by omega)
            simpa [Nat.add_assoc, Nat.add_comm 1 i] using this
    · rintro ⟨hl, hr⟩
      cases bs with
      | nil => simp at hl
      | cons b bs =>
        have h0 := hr 0 (by omega)
        simp only [Nat.add_zero, List.getD_cons_zero] at h0
        have h1 : readBytes s n (a + 1) = .ok bs := by
          refine ih.mpr ⟨by simpa using hl, fun i hi => ?_⟩
          have := hr (i + 1) (by omega)
          simpa [Nat.add_assoc, Nat.add_comm 1 i] using this
        simp [h0, h1]

/-- The window of a state that holds 25 bytes is the frame word of those bytes. -/
theorem readWindow_of_holds {s : State} {bs : List Byte} (h : s.Holds bs) (hl : bs.length = 25) :
    readWindow s = .ok (frameOfBytes bs) := by
  have hb : readBytes s 25 0 = .ok bs := by
    refine readBytes_eq_ok.mpr ⟨hl, fun i hi => readByte_eq_ok.mpr ⟨by rw [h.1]; omega, ?_⟩⟩
    have hi' : i < bs.length := by omega
    rw [Nat.zero_add, h.2 i hi', List.getD_eq_getElem?_getD, List.getElem?_eq_getElem hi']
    rfl
  simp only [readWindow, frameLen, hb]

/-- A full state whose window reads holds the bytes of that window. -/
theorem holds_of_readWindow {s : State} {f : FrameWord} (hf : s.fillCount.val = 25) (h : readWindow s = .ok f) :
    ∃ bs : List Byte, bs.length = 25 ∧ s.Holds bs ∧ f = frameOfBytes bs := by
  unfold readWindow at h
  split at h
  · cases h
  · rename_i bs hbs
    cases h
    obtain ⟨hl, hr⟩ := readBytes_eq_ok.mp hbs
    refine ⟨bs, hl, ⟨by rw [hf, hl], fun a ha => ?_⟩, rfl⟩
    have := (readByte_eq_ok.mp (hr a (by simpa [hl] using ha))).2
    rw [Nat.zero_add] at this
    rw [this, List.getD_eq_getElem?_getD, List.getElem?_eq_getElem ha]
    rfl

/-- In a good state the buffer holds as many bytes as `fill_count` says. -/
theorem State.Inv.holds {s : State} (h : s.Inv) : ∃ bs : List Byte, s.Holds bs := by
  refine ⟨(List.range s.fillCount.val).map fun a => (Memory.read s.buf a).getD 0#8, by simp, fun a ha => ?_⟩
  have ha' : a < s.fillCount.val := by simpa using ha
  have hs := (h.2 a).mpr ha'
  obtain ⟨b, hb⟩ := Option.isSome_iff_exists.mp hs
  simp [ha', hb]

/-- The error entry empties the accumulator and reports the kind. -/
theorem raiseFrameError_eq (kind : Err) (s : State) :
    raiseFrameError kind s =
      .next { discard s with result := .decoded { res := .invalid, err := kind, frame := none, ctrl := none } } := rfl

/-- After INGEST the state holds the old bytes followed by the accepted ones. -/
theorem append_holds {s : State} {bs : List Byte} (h : s.Holds bs) (data : List Byte) (r : Result) :
    State.Holds { append s (acceptedOf s.fillCount data.length)
      (data.take (acceptedOf s.fillCount data.length).val) with result := r }
      (bs ++ data.take (25 - bs.length)) := by
  obtain ⟨h1, h2⟩ := h
  have hlt := s.fillCount.isLt
  constructor
  · simp only [append_fillCount, advance_acceptedOf, List.length_append, List.length_take, h1]
    omega
  · intro a ha
    simp only [append_buf, Memory.read_writeList, acceptedOf_val, List.length_take, h1]
    simp only [List.length_append, List.length_take] at ha
    split
    · rename_i hc
      rw [List.getElem?_append_right hc.1]
      have h3 : a - bs.length < min data.length (25 - bs.length) := by omega
      rw [List.getElem?_take_of_lt (by omega), List.getElem?_take_of_lt (by omega)]
    · rename_i hc
      have h3 : a < bs.length := by omega
      rw [h2 a h3, List.getElem?_append_left h3]

end Sys2Proof.Machine
end

