-- ==== Sys2Proof/Laws/Accumulator.lean ====
section
/-! SUPPORT. What each stateful operation does, and one inversion lemma for all operations: if `exec` answers a next
state, then one of these cases holds. -/

namespace Sys2Proof.Machine

theorem windowResult_eq (kind : CtrlKind) (f : FrameWord) :
    windowResult kind f =
      match classify f with
      | .badHeader => invalidResult .headerMismatch
      | .badFooter => invalidResult .footerMismatch
      | .valid => frameResult kind f := by
  by_cases h0 : frameByte f 0 = 0x0F#8
  · by_cases h1 : frameByte f 24 = 0x00#8 <;> simp [windowResult, classify, h0, h1]
  · simp [windowResult, classify, h0]

/-- A judged window leaves the accumulator discarded and returns the window's result. -/
theorem decodeWindow_eq (f : FrameWord) (s : State) :
    decodeWindow f s = .next { discard s with result := windowResult s.config.ctrlKind f } := by
  rw [windowResult_eq]
  unfold decodeWindow
  cases classify f <;> rfl

/-- TRY_DECODE on a buffer that is not full. -/
theorem execTryDecode_notFull {s : State} (h : s.fillCount.val < 25) :
    execTryDecode s = .next { s with result := notReadyResult } := by
  simp only [execTryDecode, frameLen, h, if_true]
  rfl

/-- TRY_DECODE on a full buffer that holds 25 bytes. -/
theorem execTryDecode_holds {s : State} {bs : List Byte} (h : s.Holds bs) (hl : bs.length = 25) :
    execTryDecode s = .next { discard s with result := windowResult s.config.ctrlKind (frameOfBytes bs) } := by
  have hf : ¬ s.fillCount.val < 25 := by rw [h.1, hl]; omega
  simp only [execTryDecode, frameLen, hf, if_false, readWindow_of_holds h hl, decodeWindow_eq]

/-- Everything TRY_DECODE can do. -/
theorem execTryDecode_cases (s : State) :
    (s.fillCount.val < 25 ∧ execTryDecode s = .next { s with result := notReadyResult }) ∨
    (s.fillCount.val = 25 ∧ ∃ bs : List Byte, bs.length = 25 ∧ s.Holds bs ∧
      execTryDecode s = .next { discard s with result := windowResult s.config.ctrlKind (frameOfBytes bs) }) ∨
    (s.fillCount.val = 25 ∧ ∃ e : Fault, readWindow s = .error e ∧ execTryDecode s = .fault e) := by
  have hlt := s.fillCount.isLt
  by_cases h : s.fillCount.val < 25
  · exact .inl ⟨h, execTryDecode_notFull h⟩
  · have hf : s.fillCount.val = 25 := by omega
    cases hw : readWindow s with
    | error e => exact .inr (.inr ⟨hf, e, rfl, by simp only [execTryDecode, frameLen, h, if_false, hw]⟩)
    | ok f =>
      obtain ⟨bs, hl, hb, -⟩ := holds_of_readWindow hf hw
      exact .inr (.inl ⟨hf, bs, hl, hb, execTryDecode_holds hb hl⟩)

/-- INGEST, as one state. -/
theorem execIngest_eq (data : List Byte) (s : State) :
    execIngest data s = .next { append s (acceptedOf s.fillCount data.length)
      (data.take (acceptedOf s.fillCount data.length).val) with
      result := .accepted (acceptedOf s.fillCount data.length) } := rfl

/-- Everything an operation can do when it answers a next state: empty the accumulator (RESET), append (INGEST), find
the buffer not ready or judge the window (TRY_DECODE), or change nothing but the result (the pure operations). -/
theorem exec_next_cases {i : Instr} {s t : State} (h : exec i s = .next t) :
    (i = .reset ∧ t = { discard s with result := .nothing }) ∨
    (∃ data : List Byte, i = .ingest data ∧ t = { append s (acceptedOf s.fillCount data.length)
      (data.take (acceptedOf s.fillCount data.length).val) with
      result := .accepted (acceptedOf s.fillCount data.length) }) ∨
    (i = .tryDecode ∧ s.fillCount.val < 25 ∧ t = { s with result := notReadyResult }) ∨
    (i = .tryDecode ∧ s.fillCount.val = 25 ∧ ∃ bs : List Byte, bs.length = 25 ∧ s.Holds bs ∧
      t = { discard s with result := windowResult s.config.ctrlKind (frameOfBytes bs) }) ∨
    (IsPure i ∧ ∃ r : Result, (∀ d : DecodeResult, r ≠ .decoded d) ∧ t = { s with result := r }) := by
  have pure : ∀ {i : Instr} {r : Result}, IsPure i → (∀ d : DecodeResult, r ≠ .decoded d) → answer r s = .next t →
      IsPure i ∧ ∃ r : Result, (∀ d : DecodeResult, r ≠ .decoded d) ∧ t = { s with result := r } :=
    fun hp hr ha => ⟨hp, _, hr, answer_eq_next.mp ha⟩
  cases i with
  | reset => exact .inl ⟨rfl, answer_eq_next.mp h⟩
  | ingest data => exact .inr (.inl ⟨data, rfl, answer_eq_next.mp h⟩)
  | tryDecode =>
    change execTryDecode s = .next t at h
    rcases execTryDecode_cases s with ⟨hf, he⟩ | ⟨hf, bs, hl, hb, he⟩ | ⟨hf, e, -, he⟩
    · rw [he] at h
      cases h
      exact .inr (.inr (.inl ⟨rfl, hf, rfl⟩))
    · rw [he] at h
      cases h
      exact .inr (.inr (.inr (.inl ⟨rfl, hf, bs, hl, hb, rfl⟩)))
    · rw [he] at h
      cases h
  | classifyValid f => exact .inr (.inr (.inr (.inr (pure trivial (by simp) h))))
  | classifyBadFooter f => exact .inr (.inr (.inr (.inr (pure trivial (by simp) h))))
  | classifyBadHeader f => exact .inr (.inr (.inr (.inr (pure trivial (by simp) h))))
  | chval raw => exact .inr (.inr (.inr (.inr (pure trivial (by simp) h))))
  | unpack f => exact .inr (.inr (.inr (.inr (pure trivial (by simp) h))))
  | axis raw => exact .inr (.inr (.inr (.inr (pure trivial (by simp) h))))
  | button raw => exact .inr (.inr (.inr (.inr (pure trivial (by simp) h))))
  | threeway raw => exact .inr (.inr (.inr (.inr (pure trivial (by simp) h))))
  | axeq a b =>
    change execAxeq a b s = .next t at h
    unfold execAxeq at h
    split at h
    · exact .inr (.inr (.inr (.inr (pure trivial (by simp) h))))
    · cases h
  | ctrlmap ch => exact .inr (.inr (.inr (.inr (pure trivial (by simp) h))))

/-- No operation changes the caller's requests or the parameters. -/
theorem exec_sameOutside {i : Instr} {s t : State} (h : exec i s = .next t) : SameOutside s t := by
  rcases exec_next_cases h with ⟨-, rfl⟩ | ⟨d, -, rfl⟩ | ⟨-, -, rfl⟩ | ⟨-, -, bs, -, -, rfl⟩ | ⟨-, r, -, rfl⟩ <;>
    exact ⟨rfl, rfl⟩

/-- A step that answers a next state is an idle one or the operation of the next request. -/
theorem step_next_cases {s t : State} (h : step s = .next t) :
    t = { s with inputs := s.inputs.tail, result := .nothing } ∨
    ∃ (r : Request) (rest : List Request) (i : Instr), s.inputs = r :: rest ∧ decode r = .op i ∧
      i.wf s.config = true ∧ exec i { s with inputs := rest } = .next t := by
  unfold step at h
  split at h
  · rename_i hs
    refine .inl ((answer_eq_next.mp h).trans ?_)
    rw [hs, List.tail_nil, ← hs]
  · rename_i r rest hs
    unfold runDecoded at h
    split at h
    · rename_i i hd
      split at h
      · rename_i hw
        exact .inr ⟨r, rest, i, hs, hd, hw, h⟩
      · cases h
    · refine .inl ((answer_eq_next.mp h).trans ?_)
      rw [hs, List.tail_cons]
    · cases h

end Sys2Proof.Machine
end

