-- ==== Sys2Proof/Laws/Calibrate.lean ====
section
/-! SUPPORT. The binary32 arithmetic: the constants of AXIS, and rounding does not see common factors. -/

namespace Sys2Proof.Machine

theorem f32_one : f32 1 1 = 0x3F800000#32 := by decide
theorem f32_neg_one : f32 (-1) 1 = 0xBF800000#32 := by decide
theorem f32_deadzone : f32 axisDeadzoneNum axisDeadzoneDen = 0x3CA3D70A#32 := by decide
theorem f32_zero (den : Nat) : f32 0 den = 0x00000000#32 := rfl

/-- The rounding depends on the rational alone: a common factor of numerator and denominator changes nothing. -/
theorem f32_mul_mul (num : Int) (den : Nat) {k : Nat} (hk : 0 < k) :
    f32 (k * num) (k * den) = f32 num den := by
  have hk' : (0 : Int) < k := by exact_mod_cast hk
  have hn : ((k : Int) * num).natAbs = k * num.natAbs := by simp [Int.natAbs_mul]
  have hs : ((k : Int) * num < 0) ↔ num < 0 := by
    constructor
    · intro h
      by_contra hc
      exact absurd h (not_lt.mpr (mul_nonneg hk'.le (not_lt.mp hc)))
    · exact fun h => mul_neg_of_pos_of_neg hk' h
  have hl : k * num.natAbs * 2 ^ 40 / (k * den) = num.natAbs * 2 ^ 40 / den := by
    rw [Nat.mul_assoc, Nat.mul_div_mul_left _ _ hk]
  have hz : (k * num.natAbs = 0) ↔ num.natAbs = 0 := by simp [hk.ne']
  unfold f32
  simp only [hn, hl, hs, hz]
  generalize Nat.log2 (num.natAbs * 2 ^ 40 / den) = l
  have hp : k * num.natAbs * 2 ^ 63 = k * (num.natAbs * 2 ^ 63) := Nat.mul_assoc _ _ _
  have hd : k * den * 2 ^ l = k * (den * 2 ^ l) := Nat.mul_assoc _ _ _
  have e1 : ∀ r d : Nat, k * d < 2 * (k * r) ↔ d < 2 * r := by
    intro r d
    rw [Nat.mul_left_comm 2 k r]
    exact Nat.mul_lt_mul_left hk
  have e2 : ∀ r d : Nat, 2 * (k * r) = k * d ↔ 2 * r = d := by
    intro r d
    rw [Nat.mul_left_comm 2 k r]
    exact Nat.mul_right_inj hk.ne'
  simp only [hp, hd, Nat.mul_div_mul_left _ _ hk, Nat.mul_mod_mul_left, e1, e2]

end Sys2Proof.Machine
end

