-- ==== Sys2Proof/Laws/Frame.lean ====
section
/-! SUPPORT. The frame as a value: its class by its two bytes, the bits of its bytes and flags, CHVAL as a remainder, and
disjoint shifts as sums. -/

namespace Sys2Proof.Machine

/-- The class of a frame word, by its header and footer bytes. -/
theorem classify_cases (f : FrameWord) :
    (classify f = .badHeader ↔ frameByte f 0 ≠ 0x0F#8) ∧
    (classify f = .badFooter ↔ frameByte f 0 = 0x0F#8 ∧ frameByte f 24 ≠ 0x00#8) ∧
    (classify f = .valid ↔ frameByte f 0 = 0x0F#8 ∧ frameByte f 24 = 0x00#8) := by
  simp only [classify, headerPos, header, footerPos, footer]
  by_cases h0 : frameByte f 0 = 0x0F#8 <;> by_cases h1 : frameByte f 24 = 0x00#8 <;> simp [h0, h1]

/-- Bit k of byte n is bit `8*n + k` of the frame word. -/
theorem frameByte_getLsbD (f : FrameWord) (n : Nat) {k : Nat} (hk : k < 8) :
    (frameByte f n).getLsbD k = f.getLsbD (8 * n + k) := by
  simp [frameByte, hk]

/-- Each flag is its own bit of the flag byte. -/
theorem flag_bits (b : Byte) :
    flagCh17 b = b.getLsbD 0 ∧ flagCh18 b = b.getLsbD 1 ∧ flagFrameLost b = b.getLsbD 2 ∧
      flagFailsafe b = b.getLsbD 3 := by
  revert b
  unfold flagCh17 flagCh18 flagFrameLost flagFailsafe
  decide

/-- A number laid above a smaller one by a shift is their sum. -/
theorem shiftLeft_or (a : Nat) {b k : Nat} (h : b < 2 ^ k) : (a <<< k) ||| b = a * 2 ^ k + b := by
  rw [← Nat.shiftLeft_add_eq_or_of_lt h, Nat.shiftLeft_eq]

/-- The mask of CHVAL is a remainder. -/
theorem and_chMask (v : Nat) : v &&& chMask = v % 2048 := Nat.and_two_pow_sub_one_eq_mod v 11

/-- The low eleven bytes of a number, byte by byte. -/
theorem eleven_bytes (v : Nat) :
    v % 2 ^ 88 = v % 256 + v / 2 ^ 8 % 256 * 2 ^ 8 + v / 2 ^ 16 % 256 * 2 ^ 16 + v / 2 ^ 24 % 256 * 2 ^ 24 +
      v / 2 ^ 32 % 256 * 2 ^ 32 + v / 2 ^ 40 % 256 * 2 ^ 40 + v / 2 ^ 48 % 256 * 2 ^ 48 + v / 2 ^ 56 % 256 * 2 ^ 56 +
      v / 2 ^ 64 % 256 * 2 ^ 64 + v / 2 ^ 72 % 256 * 2 ^ 72 + v / 2 ^ 80 % 256 * 2 ^ 80 := by
  omega

/-- An operand word in its unit's bytes is taken by the unit. -/
theorem decodeUnit_natToBytes (u : FnUnit) {v : Nat} (h : v < 2 ^ operandBits u) :
    decodeUnit u (natToBytes (operandBytes u) v) = decodeOperand u v := by
  have hle : operandBits u ≤ 8 * operandBytes u := by cases u <;> decide
  have hv : bytesToNat (natToBytes (operandBytes u) v) = v := by
    rw [bytesToNat_natToBytes, Nat.mod_eq_of_lt (lt_of_lt_of_le h (Nat.pow_le_pow_right (by norm_num) hle))]
  simp [decodeUnit, hv, h]

end Sys2Proof.Machine
end

