-- ==== Sys2Proof/Laws/PerInstr.lean ====
section
/-! SUPPORT. One lemma per operation: its encoding is a request that fits an input of the core. -/

namespace Sys2Proof.Laws.EncodingFits

open Sys2Proof.Machine

/-- A request fits: `n` counts the `data` wires, and an operand word has its unit's length and width (R71, R77). -/
def Fits : Request → Prop
  | .pins _ _ _ n data => n = data.length
  | .unit u word => word.length = operandBytes u ∧ bytesToNat word < 2 ^ operandBits u
  | .stray _ => False

/-- The encoding of the operation fits an input of the core. -/
def Statement (i : Instr) : Prop := Fits (encode i)

theorem unit_fits (u : FnUnit) {v : Nat} (h : v < 2 ^ operandBits u) :
    Fits (.unit u (natToBytes (operandBytes u) v)) := by
  refine ⟨natToBytes_length _ _, ?_⟩
  rw [bytesToNat_natToBytes]
  exact lt_of_le_of_lt (Nat.mod_le _ _) h

theorem reset : Statement .reset := rfl
theorem ingest (data : List Byte) : Statement (.ingest data) := rfl
theorem tryDecode : Statement .tryDecode := rfl
theorem classifyValid (f : FrameWord) : Statement (.classifyValid f) := unit_fits .classify f.isLt
theorem classifyBadFooter (f : FrameWord) : Statement (.classifyBadFooter f) := unit_fits .classify f.isLt
theorem classifyBadHeader (f : FrameWord) : Statement (.classifyBadHeader f) := unit_fits .classify f.isLt
theorem chval (raw : RawWord) : Statement (.chval raw) := unit_fits .chval raw.isLt
theorem unpack (f : FrameWord) : Statement (.unpack f) := unit_fits .unpack f.isLt
theorem axis (raw : Channel) : Statement (.axis raw) := unit_fits .axis raw.isLt
theorem button (raw : Channel) : Statement (.button raw) := unit_fits .button raw.isLt
theorem threeway (raw : Channel) : Statement (.threeway raw) := unit_fits .threeway raw.isLt

theorem axeq (a b : F32) : Statement (.axeq a b) := by
  have ha := a.isLt
  have hb := b.isLt
  exact unit_fits .axeq (by simp only [operandBits]; omega)

theorem ctrlmap (ch : Channels) : Statement (.ctrlmap ch) := unit_fits .ctrlmap (wordOfChannels ch).isLt

end Sys2Proof.Laws.EncodingFits
end

