-- ==== Sys2Proof/Laws/Pseudo.lean ====
section
/-! SUPPORT. Runs: one operation and then the rest, and two runs joined. -/

namespace Sys2Proof.Machine

/-- A run begins with its first operation. -/
theorem runOps_cons {i : Instr} {is : List Instr} {s t u : State} {rs : List Result} (h : exec i s = .next t)
    (hr : runOps is t = .next (u, rs)) : runOps (i :: is) s = .next (u, t.result :: rs) := by
  simp only [runOps, observe, h, hr]

/-- A run of two lists joined is the second run after the first. -/
theorem runOps_append {xs ys : List Instr} {s t u : State} {as bs : List Result} (h1 : runOps xs s = .next (t, as))
    (h2 : runOps ys t = .next (u, bs)) : runOps (xs ++ ys) s = .next (u, as ++ bs) := by
  induction xs generalizing s as with
  | nil =>
    simp only [runOps, Host.Outcome.next.injEq, Prod.mk.injEq] at h1
    obtain ⟨rfl, rfl⟩ := h1
    simpa using h2
  | cons x xs ih =>
    simp only [runOps, observe] at h1
    cases hx : exec x s with
    | fault e => rw [hx] at h1; cases h1
    | refused e => rw [hx] at h1; cases h1
    | next v =>
      rw [hx] at h1
      cases hr : runOps xs v with
      | fault e => simp only [hr] at h1; cases h1
      | refused e => simp only [hr] at h1; cases h1
      | next p =>
        simp only [hr] at h1
        cases h1
        exact runOps_cons hx (ih hr)

/-- EMPTY holds the empty list of bytes. -/
theorem holds_nil {s : State} (h : s.fillCount = 0) : s.Holds [] := ⟨by simp [h], by simp⟩

end Sys2Proof.Machine
end

