-- ==== Sys2Proof/Machine/Text.lean ====
section
/-! DEFINITION. The text notation of test programs: one operation a line, bytes as two hexadecimal digits, raw values
in decimal, a comment after `;` (`spec/30_encoding.md` rule R79; log entry 18). A notation, not an input of the core. -/

namespace Sys2Proof.Machine

/-- A line of a test program. -/
inductive Line where
  | op (i : Instr)
  | poll (bytes : List Byte)
  | feed (bytes : List Byte)
deriving DecidableEq, Repr

/-- The value of a hexadecimal digit. -/
def hexDigit (c : Char) : Option Nat :=
  if '0'.toNat ≤ c.toNat ∧ c.toNat ≤ '9'.toNat then some (c.toNat - '0'.toNat)
  else if 'A'.toNat ≤ c.toNat ∧ c.toNat ≤ 'F'.toNat then some (c.toNat - 'A'.toNat + 10)
  else none

/-- The number a list of digits writes in a base of at most 16, given the value so far. -/
def numeral (base : Nat) : List Char → Nat → Option Nat
  | [], v => some v
  | c :: cs, v =>
    match hexDigit c with
    | some d => if d < base then numeral base cs (base * v + d) else none
    | none => none

/-- A word of n hexadecimal digits (R79). -/
def hexWord (n : Nat) (t : List Char) : Option Nat := if t.length = n then numeral 16 t 0 else none

/-- A decimal value below a bound (R79). -/
def decimalBelow (bound : Nat) (t : List Char) : Option Nat :=
  match t with
  | [] => none
  | _ :: _ =>
    match numeral 10 t 0 with
    | some v => if v < bound then some v else none
    | none => none

/-- All of a list of words, read one by one. -/
def readAll (read : List Char → Option Nat) : List (List Char) → Option (List Nat)
  | [] => some []
  | t :: ts =>
    match read t, readAll read ts with
    | some v, some vs => some (v :: vs)
    | _, _ => none

/-- A list of bytes, each of two hexadecimal digits (R79). -/
def readByteList (ts : List (List Char)) : Option (List Byte) :=
  (readAll (hexWord 2) ts).map fun vs => vs.map (BitVec.ofNat 8)

/-- A frame: 25 bytes, byte 0 first. -/
def readFrame (ts : List (List Char)) : Option FrameWord :=
  if ts.length = 25 then (readByteList ts).map frameOfBytes else none

/-- The operation a request stands for, as a line. -/
def lineOf : Decoded → Option Line
  | .op i => some (.op i)
  | .idle => none
  | .rejected _ => none

/-- One operand word put to a function unit, as a line. -/
def unitLine (u : FnUnit) (w : Option Nat) : Option Line := w.bind fun v => lineOf (decodeOperand u v)

/-- The operation a mnemonic and its operands write (R79). -/
def readWords (mnemonic : List Char) (ts : List (List Char)) : Option Line :=
  if mnemonic = "RESET".toList then if ts = [] then some (.op .reset) else none
  else if mnemonic = "TRY_DECODE".toList then if ts = [] then some (.op .tryDecode) else none
  else if mnemonic = "INGEST".toList then (readByteList ts).map fun bs => .op (.ingest bs)
  else if mnemonic = "POLL".toList then (readByteList ts).map .poll
  else if mnemonic = "FEED".toList then (readByteList ts).map .feed
  else if mnemonic = "CLASSIFY".toList then (readFrame ts).bind fun f => lineOf (decodeClassify f)
  else if mnemonic = "UNPACK".toList then (readFrame ts).map fun f => .op (.unpack f)
  else
    match ts with
    | [a] =>
      if mnemonic = "CHVAL".toList then unitLine .chval (decimalBelow (2 ^ 16) a)
      else if mnemonic = "AXIS".toList then unitLine .axis (decimalBelow (2 ^ 11) a)
      else if mnemonic = "BUTTON".toList then unitLine .button (decimalBelow (2 ^ 11) a)
      else if mnemonic = "THREEWAY".toList then unitLine .threeway (decimalBelow (2 ^ 11) a)
      else none
    | [a, b] =>
      if mnemonic = "AXEQ".toList then
        (hexWord 8 a).bind fun x => (hexWord 8 b).map fun y => .op (.axeq (BitVec.ofNat 32 x) (BitVec.ofNat 32 y))
      else none
    | _ =>
      if mnemonic = "CTRLMAP".toList ∧ ts.length = 16 then
        (readAll (decimalBelow (2 ^ 11)) ts).map fun vs =>
          .op (.ctrlmap (channelsOfWord (BitVec.ofNat 176 (channelsToNat (vs.map (BitVec.ofNat 11))))))
      else none

/-- The part of a line before its comment. -/
def beforeComment : List Char → List Char
  | [] => []
  | c :: cs => if c = ';' then [] else c :: beforeComment cs

/-- One line of a test program; `none` for a blank line and for one that is not of the notation (R79). -/
def readLine (line : String) : Option Line :=
  match ((beforeComment line.toList).splitOn ' ').filter (fun t => !t.isEmpty) with
  | [] => none
  | m :: ts => readWords m ts

end Sys2Proof.Machine
end

