-- ==== Sys2Proof/Tests/Slice0.lean ====
section
/-! SUPPORT. The model's own tests. Expected results are those of `spec/95_test_vectors.md` (tables T1 to T11, programs
P1 to P6) and of the rules named; then, for every statement with hypotheses, a theorem that shows what meets them. -/

namespace Sys2Proof.Tests

open Sys2Proof Sys2Proof.Machine

/-! ### Helpers -/

/-- The bytes of the reference frame V1. -/
def v1 : List Byte :=
  [0x0F#8, 0xE8#8, 0x43#8, 0x1F#8, 0xFA#8, 0xD0#8, 0x87#8, 0x3E#8, 0xF4#8, 0xA1#8, 0x0F#8, 0x7D#8] ++
  [0xE8#8, 0x43#8, 0x1F#8, 0xFA#8, 0xD0#8, 0x87#8, 0x3E#8, 0xF4#8, 0xA1#8, 0x0F#8, 0x7D#8, 0x00#8, 0x00#8]

/-- The bytes of the reference frame V2. -/
def v2 : List Byte :=
  [0x0F#8, 0x00#8, 0x08#8, 0x80#8, 0x00#8, 0x08#8, 0x80#8, 0x00#8, 0x08#8, 0x80#8, 0x00#8, 0x08#8] ++
  [0x80#8, 0x00#8, 0x08#8, 0x80#8, 0x00#8, 0xF8#8, 0xFF#8, 0xAA#8, 0xAA#8, 0x0A#8, 0x7D#8, 0x0C#8, 0x00#8]

/-- The bytes of the reference frame V3. -/
def v3 : List Byte :=
  [0x0F#8, 0xC8#8, 0x40#8, 0x38#8, 0xFA#8, 0xB2#8, 0x87#8, 0x3F#8, 0x84#8, 0x63#8, 0x0F#8, 0x19#8] ++
  [0xFF#8, 0x07#8, 0x40#8, 0x00#8, 0xFC#8, 0x0F#8, 0xC0#8, 0xFF#8, 0xB1#8, 0x62#8, 0xE2#8, 0x03#8, 0x00#8]

/-- The bytes of the reference frame VX. -/
def vx : List Byte := [0x0F#8, 0xE8#8, 0x00#8, 0x0F#8] ++ v1.drop 4

/-- V1 with byte 0 replaced by 0E. -/
def v1BadHeader : List Byte := v1.set 0 0x0E#8

/-- V1 with byte 24 replaced by 04. -/
def v1BadFooter : List Byte := v1.set 24 0x04#8

/-- The three frames of a zero payload, one of each class. -/
def plainFrame : FrameWord := 0x0F#200

/-- Header 0x0F, footer 0x04. -/
def badFooterFrame : FrameWord := BitVec.ofNat 200 (0x04 * 2 ^ 192 + 0x0F)

/-- Sixteen channels of one value. -/
def sixteen (v : Channel) : Channels := Vector.replicate 16 v

/-- A state whose accumulator holds the listed bytes. -/
def stateOf (bs : List Byte) : State :=
  { State.reset with fillCount := Fin.ofNat 26 bs.length, buf := Memory.writeList [] 0 bs }

/-- A state with pending requests. -/
def asking (rs : List Request) (s : State) : State := { s with inputs := rs }

/-- The `fill_count` and the result a step leaves. -/
def after (o : Step) : Option (Nat × Result) :=
  match o with
  | .next t => some (t.fillCount.val, t.result)
  | .fault _ => none
  | .refused _ => none

/-- The results of a run. -/
def results (o : RunOutcome) : Option (List Result) :=
  match o with
  | .next (_, rs) => some rs
  | .fault _ => none
  | .refused _ => none

/-- The state a step leaves. -/
def nextOf (o : Step) : State :=
  match o with
  | .next t => t
  | .fault _ => State.reset
  | .refused _ => State.reset

/-- The channels of a frame. -/
def channelsOf (bs : List Byte) : List Nat := (unpack (frameOfBytes bs)).ch.toList.map (·.toNat)

/-- The flags of a frame. -/
def flagsOf (d : DecodedFrame) : List Bool := [d.ch17, d.ch18, d.frameLost, d.failsafe]

/-- A machine whose INGEST takes at most two bytes. -/
def twoByteMachine : Config := { State.reset.config with ingestMax := some 2 }

/-! ### Well-formedness: each check refuses an ill-formed term -/

theorem test_wf_refuses_bad_footer_as_valid : (Instr.classifyValid badFooterFrame).wf twoByteMachine = false := by
  decide

theorem test_wf_refuses_bad_header_as_valid : (Instr.classifyValid 0#200).wf twoByteMachine = false := by decide

theorem test_wf_refuses_valid_as_bad_footer : (Instr.classifyBadFooter plainFrame).wf twoByteMachine = false := by
  decide

theorem test_wf_refuses_bad_footer_as_bad_header :
    (Instr.classifyBadHeader badFooterFrame).wf twoByteMachine = false := by decide

theorem test_wf_refuses_more_than_ingest_max :
    (Instr.ingest [1#8, 2#8, 3#8]).wf twoByteMachine = false ∧
    (Instr.ingest [1#8, 2#8]).wf twoByteMachine = true := by decide

/-! ### Decoding: one word for each row, written out from R71, R77 and R80 -/

theorem test_decode_reset : decode (.pins true false true 0 []) = .op .reset := by decide

/-- Step 2 of P1, cut to three bytes. -/
theorem test_decode_ingest :
    decode (.pins false true false 3 [0x0F#8, 0xE8#8, 0x43#8, 0xAA#8]) = .op (.ingest [0x0F#8, 0xE8#8, 0x43#8]) := by
  decide

theorem test_decode_tryDecode : decode (.pins false true true 0 []) = .op .tryDecode := by decide

/-- The word of V1 as `spec/95_test_vectors.md` writes it. -/
theorem test_decode_classifyValid :
    decode (.unit .classify v1) = .op (.classifyValid 0x00007D0FA1F43E87D0FA1F43E87D0FA1F43E87D0FA1F43E80F#200) := by
  decide

theorem test_decode_classifyBadFooter :
    decode (.unit .classify (0x0F#8 :: List.replicate 23 0xFF#8 ++ [0x01#8])) =
      .op (.classifyBadFooter 0x01FFFFFFFFFFFFFFFFFFFFFFFFFFFFFFFFFFFFFFFFFFFFFF0F#200) := by decide

theorem test_decode_classifyBadHeader :
    decode (.unit .classify (0x1F#8 :: List.replicate 24 0x00#8)) = .op (.classifyBadHeader 0x1F#200) := by decide

/-- 0x43E8 is 0100 0011 1110 1000. -/
theorem test_decode_chval : decode (.unit .chval [0b11101000#8, 0b01000011#8]) = .op (.chval 0x43E8#16) := by decide

theorem test_decode_unpack :
    decode (.unit .unpack v1) = .op (.unpack 0x00007D0FA1F43E87D0FA1F43E87D0FA1F43E87D0FA1F43E80F#200) := by decide

/-- 1400 is 101 0111 1000. -/
theorem test_decode_axis : decode (.unit .axis [0b01111000#8, 0b00000101#8]) = .op (.axis 1400#11) := by decide

theorem test_decode_button : decode (.unit .button [0b11101000#8, 0b00000011#8]) = .op (.button 1000#11) := by decide

theorem test_decode_threeway : decode (.unit .threeway [0b00001000#8, 0b00000111#8]) = .op (.threeway 1800#11) := by
  decide

/-- Operand `a` is in bits 63:32: the last four bytes. -/
theorem test_decode_axeq :
    decode (.unit .axeq [0x01#8, 0x00#8, 0x80#8, 0x3F#8, 0x00#8, 0x00#8, 0x00#8, 0x34#8]) =
      .op (.axeq 0x34000000#32 0x3F800001#32) := by decide

/-- The payload of V2, without the gap between its groups, is the word of its channels. -/
theorem test_decode_ctrlmap :
    decode (.unit .ctrlmap ((v2.drop 1).take 22)) =
      .op (.ctrlmap #v[0#11, 1#11, 2#11, 4#11, 8#11, 16#11, 32#11, 64#11, 128#11, 256#11, 512#11, 1024#11, 2047#11,
        1365#11, 682#11, 1000#11]) := by decide

theorem test_decode_refuses_wide_and_short_words :
    decode (.unit .axis [0x00#8, 0x08#8]) = .rejected .operandTooWide ∧
    decode (.unit .chval [0x00#8]) = .rejected .operandLength ∧
    decode (.pins false true false 2 [0x00#8]) = .rejected .dataShorterThanN := by decide

/-- The PIN and CMD words of the opcode table. -/
theorem test_table_words_of_pins :
    decodeTableWord 8 0b1 = some .reset ∧ decodeTableWord 8 0b10 = some (.ingest []) ∧
    decodeTableWord 8 0b11 = some .tryDecode := by decide

/-- The three frame rows of the opcode table. -/
theorem test_table_words_of_frames :
    decodeTableWord 200 0x0F = some (.classifyValid plainFrame) ∧
    decodeTableWord 200 (0x04 * 2 ^ 192 + 0x0F) = some (.classifyBadFooter badFooterFrame) ∧
    decodeTableWord 200 0 = some (.classifyBadHeader 0#200) := by decide

/-- The word placed by `withFetchWord` is the one the next step runs. -/
theorem test_withFetchWord_runs_the_word :
    after (step (State.reset.withFetchWord 8 0b11)) = some (0, notReadyResult) ∧
    after (step (State.reset.withFetchWord 16 0x43E8)) = some (0, .channel 1000#11) := by decide

/-- R79's own example, and lines with comments, decimals and hexadecimal words. -/
theorem test_text_notation :
    readLine "INGEST 0F E8 43" = some (.op (.ingest [0x0F#8, 0xE8#8, 0x43#8])) ∧
    readLine "AXIS 1400 ; half" = some (.op (.axis 1400#11)) ∧
    readLine "AXEQ 3F800000 3F800001" = some (.op (.axeq 0x3F800000#32 0x3F800001#32)) ∧
    readLine "POLL" = some (.poll []) ∧ readLine "BUTTON 2048" = none := by decide

/-! ### One step of each operation -/

/-- R91's example: from `fill_count` 7. -/
theorem test_reset_from_seven :
    exec .reset (stateOf (v1.take 7)) = .next State.reset := by rfl

/-- T10: `fill_count` 23, `AA BB CC DD`. -/
theorem test_ingest_past_the_end :
    nextOf (exec (.ingest [0xAA#8, 0xBB#8, 0xCC#8, 0xDD#8]) (stateOf (v1.take 23))) =
      { stateOf (v1.take 23 ++ [0xAA#8, 0xBB#8]) with result := .accepted 2 } := by decide

/-- T10: a full buffer accepts nothing. -/
theorem test_ingest_into_full :
    after (exec (.ingest [0x11#8, 0x22#8, 0x33#8]) (stateOf v1)) = some (25, .accepted 0) := by decide

/-- T11 with T2 and T9, row V3: the whole result. -/
theorem test_tryDecode_v3 :
    after (exec .tryDecode (stateOf v3)) = some (0, .decoded
      { res := .frame, err := .none,
        frame := some
          { ch := #v[200#11, 1800#11, 1000#11, 985#11, 1016#11, 1800#11, 984#11, 200#11, 2047#11, 0#11, 1#11, 2046#11,
              1024#11, 1023#11, 172#11, 1811#11],
            ch17 := true, ch18 := true, frameLost := false, failsafe := false },
        ctrl := some
          { rightThumb := { x := 0xBF800000#32, y := 0x3F800000#32 },
            leftThumb := { x := 0x00000000#32, y := 0x00000000#32 },
            rightTrigger := .axis 0x3CA3D70A#32, rightShoulder := .threeWay .up,
            leftTrigger := .axis 0xBCA3D70A#32, leftShoulder := .threeWay .down } }) := by decide

/-- T11: both bytes wrong reports the header; a wrong footer alone reports the footer. -/
theorem test_tryDecode_mismatches :
    after (exec .tryDecode (stateOf ((v1.set 0 0x00#8).set 24 0xFF#8))) = some (0, invalidResult .headerMismatch) ∧
    after (exec .tryDecode (stateOf v1BadFooter)) = some (0, invalidResult .footerMismatch) := by decide

/-- T4, rows 0F 00 and 0F FF. -/
theorem test_classify_valid : after (exec (.classifyValid plainFrame) State.reset) = some (0, .frameClass .valid) := by
  decide

theorem test_classify_bad_footer :
    after (exec (.classifyBadFooter (BitVec.ofNat 200 (0xFF * 2 ^ 192 + 0x0F))) State.reset) =
      some (0, .frameClass .badFooter) := by decide

/-- T4: both wrong, 00 and 0F. -/
theorem test_classify_bad_header :
    after (exec (.classifyBadHeader (BitVec.ofNat 200 (0x0F * 2 ^ 192))) State.reset) =
      some (0, .frameClass .badHeader) := by decide

/-- T1. -/
theorem test_chval :
    [0x0000, 0x03E8, 0x07FF, 0x0800, 0x0801, 0x43E8, 0x8000, 0xFFFF, 0x3FFFF].map (fun v => (chval v).toNat) =
      [0, 1000, 2047, 0, 1, 1000, 0, 2047, 2047] := by decide

/-- T2, rows V2 and VX; P4 (b), the window three bytes into a run of VX, with its flag byte E8. -/
theorem test_unpack :
    channelsOf v2 = [0, 1, 2, 4, 8, 16, 32, 64, 128, 256, 512, 1024, 2047, 1365, 682, 1000] ∧
    flagsOf (unpack (frameOfBytes v2)) = [false, false, true, true] ∧
    channelsOf vx = 232 :: 480 :: List.replicate 14 1000 ∧
    channelsOf (vx.drop 3 ++ vx.take 3) = List.replicate 14 250 ++ [0, 120] ∧
    flagsOf (unpack (frameOfBytes (vx.drop 3 ++ vx.take 3))) = [false, false, false, true] := by decide

/-- R118: an all-FF group is 2047 eight times only because each value is masked; T3, rows 15 and F0. -/
theorem test_group_masks_and_flags :
    (group 255 255 255 255 255 255 255 255 255 255 255).toList.map (·.toNat) = List.replicate 8 2047 ∧
    [flagCh17 0x15#8, flagCh18 0x15#8, flagFrameLost 0x15#8, flagFailsafe 0x15#8] = [true, false, true, false] ∧
    [flagCh17 0xF0#8, flagCh18 0xF0#8, flagFrameLost 0xF0#8, flagFailsafe 0xF0#8] = List.replicate 4 false := by
  decide

/-- PACK of R119 gives the bytes of V2. -/
theorem test_pack_v2 : frameBytes (pack (unpack (frameOfBytes v2)).ch 0x0C#8) = v2 := by decide

/-- T5. -/
theorem test_axis :
    [0, 200, 201, 500, 800, 984, 985, 999].map axis =
      [0xBF800000#32, 0xBF800000#32, 0xBF7FAE14#32, 0xBF200000#32, 0xBE800000#32, 0xBCA3D70A#32, 0x00000000#32,
        0x00000000#32] ∧
    [1000, 1015, 1016, 1234, 1400, 1799, 1800, 1801, 2047].map axis =
      [0x00000000#32, 0x00000000#32, 0x3CA3D70A#32, 0x3E95C28F#32, 0x3F000000#32, 0x3F7FAE14#32, 0x3F800000#32,
        0x3F800000#32, 0x3F800000#32] := by decide

/-- Four rows of the table of `spec/43_axis_lut.md`; raw 208 is the last-bit case of R153. -/
theorem test_axis_table_rows :
    (List.range 8).map (fun i => axis (208 + i)) =
      [0xBF7D70A4#32, 0xBF7D1EB8#32, 0xBF7CCCCD#32, 0xBF7C7AE1#32,
        0xBF7C28F6#32, 0xBF7BD70A#32, 0xBF7B851F#32, 0xBF7B3333#32] ∧
    (List.range 8).map (fun i => axis (976 + i)) =
      [0xBCF5C28F#32, 0xBCEB851F#32, 0xBCE147AE#32, 0xBCD70A3D#32,
        0xBCCCCCCD#32, 0xBCC28F5C#32, 0xBCB851EC#32, 0xBCAE147B#32] ∧
    (List.range 8).map (fun i => axis (1016 + i)) =
      [0x3CA3D70A#32, 0x3CAE147B#32, 0x3CB851EC#32, 0x3CC28F5C#32,
        0x3CCCCCCD#32, 0x3CD70A3D#32, 0x3CE147AE#32, 0x3CEB851F#32] ∧
    (List.range 8).map (fun i => axis (1792 + i)) =
      [0x3F7D70A4#32, 0x3F7DC28F#32, 0x3F7E147B#32, 0x3F7E6666#32,
        0x3F7EB852#32, 0x3F7F0A3D#32, 0x3F7F5C29#32, 0x3F7FAE14#32] := by decide

/-- T6. -/
theorem test_button :
    [0, 999, 1000, 1001, 1800, 2047].map button =
      [.released, .released, .released, .pressed, .pressed, .pressed] := by decide

/-- T7. -/
theorem test_threeway :
    [0, 199, 200, 201, 900, 1000, 1799, 1800, 1801, 2047].map threeWay =
      [.mid, .mid, .down, .mid, .mid, .mid, .mid, .up, .mid, .mid] := by decide

/-- T8: the bound is inclusive, from both sides and at zero. -/
theorem test_axeq :
    axeq 0x00000000#32 0x80000000#32 = true ∧ axeq 0x3F800000#32 0x3F7FFFFE#32 = true ∧
    axeq 0x3F800000#32 0x3F800001#32 = true ∧ axeq 0x3F800000#32 0x3F800002#32 = false ∧
    axeq 0x00000000#32 0x34000000#32 = true ∧ axeq 0x00000000#32 0x34000001#32 = false ∧
    axeq 0x3F7FAE14#32 0x3F800000#32 = false := by decide

/-- U6: a NaN and an infinite operand are refused. -/
theorem test_axeq_refuses_not_finite :
    exec (.axeq 0x7FC00000#32 0x00000000#32) State.reset = .refused .axeqNotFinite ∧
    exec (.axeq 0x00000000#32 0xFF800000#32) State.reset = .refused .axeqNotFinite := ⟨rfl, rfl⟩

/-- T9, the row 250, through a step; every other field is BF700000. -/
theorem test_ctrlmap_250 :
    after (exec (.ctrlmap (sixteen 250#11)) State.reset) = some (0, .controls
      { rightThumb := { x := 0xBF700000#32, y := 0xBF700000#32 },
        leftThumb := { x := 0xBF700000#32, y := 0xBF700000#32 },
        rightTrigger := .axis 0xBF700000#32, rightShoulder := .threeWay .mid,
        leftTrigger := .axis 0xBF700000#32, leftShoulder := .threeWay .mid }) := by decide

/-- The text after T9: V3's channels 4 to 7 under every kind. -/
theorem test_cal_kinds :
    [1016, 1800, 984, 200].map (cal .axis) =
      [.axis 0x3CA3D70A#32, .axis 0x3F800000#32, .axis 0xBCA3D70A#32, .axis 0xBF800000#32] ∧
    [1016, 1800, 984, 200].map (cal .button) =
      [.button .pressed, .button .pressed, .button .released, .button .released] ∧
    [1016, 1800, 984, 200].map (cal .threeWay) =
      [.threeWay .mid, .threeWay .up, .threeWay .mid, .threeWay .down] := by decide

/-- P3's first 30 bytes as FEED; what FEED leaves is offered first to the next window. -/
theorem test_feed_reoffers :
    results (feed (v1BadFooter ++ v3.take 5) State.reset) = some [invalidResult .footerMismatch, notReadyResult] := by
  decide

/-! ### Witnesses: what meets the hypotheses of the statements -/

theorem stateOf_holds {bs : List Byte} (h : bs.length ≤ 25) : (stateOf bs).Holds bs := by
  have hl : (Fin.ofNat 26 bs.length).val = bs.length := Nat.mod_eq_of_lt (by omega)
  refine ⟨hl, fun a ha => ?_⟩
  simp [stateOf, Memory.read_writeList, ha]

theorem stateOf_inv {bs : List Byte} (h : bs.length ≤ 25) : (stateOf bs).Inv := by
  have hl : (Fin.ofNat 26 bs.length).val = bs.length := Nat.mod_eq_of_lt (by omega)
  refine ⟨Memory.wf_writeList bs Memory.wf_nil (by simp only [frameLen]; omega), fun a => ?_⟩
  by_cases ha : a < bs.length <;> simp [stateOf, Memory.read_writeList, ha] <;> omega

theorem witness_DecodeOfEncode :
    (Instr.ingest [1#8, 2#8]).wf twoByteMachine = true ∧
    (Instr.classifyBadFooter badFooterFrame).wf twoByteMachine = true ∧ (Instr.chval 0xFFFF#16).wf twoByteMachine = true := by
  decide

theorem witness_EncodeOfDecodedOperand :
    decode (.unit .axis [0xFF#8, 0x07#8]) = .op (.axis 2047#11) ∧
    decode (.unit .classify v1BadHeader) = .op (.classifyBadHeader (frameOfBytes v1BadHeader)) := by decide

theorem witness_OperandWordsFollowTheTable :
    classify plainFrame = .valid ∧ classify badFooterFrame = .badFooter ∧ classify 0#200 = .badHeader := by decide

theorem witness_PinsChooseTheOperation :
    [1#8, 2#8, 3#8].length = 3 ∧
    (asking [.pins false false true 1 [], .stray []] State.reset).inputs = .pins false false true 1 [] :: [.stray []] := by
  decide

theorem witness_StepRunsTheDecodedOperation :
    (asking [.pins false true true 0 []] (stateOf v1)).inputs = .pins false true true 0 [] :: [] ∧
    decode (.pins false true true 0 []) = .op .tryDecode ∧
    Instr.tryDecode.wf (asking [.pins false true true 0 []] (stateOf v1)).config = true := by decide

theorem witness_StopsAreNamed :
    (asking [.stray [1#8]] State.reset).inputs = .stray [1#8] :: [] ∧
    decode (.stray [1#8]) = .rejected .noSuchInput ∧ [0#8].length ≠ operandBytes .axis ∧
    [0x00#8, 0x08#8].length = operandBytes .axis ∧ 2 ^ operandBits .axis ≤ bytesToNat [0x00#8, 0x08#8] ∧
    ((asking [.pins false true false 3 [1#8, 2#8, 3#8]] { State.reset with config := twoByteMachine }).inputs =
      .pins false true false 3 [1#8, 2#8, 3#8] :: [] ∧
      ({ State.reset with config := twoByteMachine } : State).config.ingestMax = some 2 ∧
      3 ≤ [1#8, 2#8, 3#8].length) ∧
    ([] : List Byte).length < 1 ∧ (0x7FC00000#32).extractLsb' 23 8 = 255#8 ∧ (0xFF800000#32).extractLsb' 23 8 = 255#8 := by
  decide

theorem witness_IdleStepsChangeNothing :
    ∀ r ∈ (asking (List.replicate 3 (.pins false false true 0 [])) (stateOf (v1.take 7))).inputs.take (1 + 1),
      ∃ (cmd : Bool) (n : Nat) (data : List Byte), r = .pins false false cmd n data := by
  intro r hr
  exact ⟨true, 0, [], by simpa [asking, List.replicate] using hr⟩

theorem witness_ResetStateIsEmpty : exec .reset (stateOf v1) = .next State.reset := by rfl

theorem witness_ResetEmptiesTheAccumulator :
    (asking [.pins true true true 0 [], .stray []] (stateOf v1)).inputs = .pins true true true 0 [] :: [.stray []] := rfl

/-- Clause (b), (c) at exactly the free room, (d) one above it, (f). -/
theorem witness_IngestCornerCases :
    (stateOf v1).fillCount.val = 25 ∧ 25 - (stateOf (v1.take 24)).fillCount.val = [1#8].length ∧
    25 - (stateOf (v1.take 24)).fillCount.val < [1#8, 2#8].length ∧
    exec (.ingest [1#8]) State.reset = .next { stateOf [1#8] with result := .accepted 1 } := ⟨rfl, by decide, by decide, rfl⟩

/-- The clauses of a buffer of 24 bytes, and of a full one with each of the three outcomes. -/
theorem witness_TryDecodeJudgesTheWindow :
    (stateOf (v1.take 24)).fillCount.val < 25 ∧
    (v1BadHeader.length = 25 ∧ (stateOf v1BadHeader).Holds v1BadHeader ∧ v1BadHeader[0]? ≠ some 0x0F#8) ∧
    (v1BadFooter.length = 25 ∧ (stateOf v1BadFooter).Holds v1BadFooter ∧ v1BadFooter[0]? = some 0x0F#8 ∧
      v1BadFooter[24]? ≠ some 0x00#8) ∧
    (v1.length = 25 ∧ (stateOf v1).Holds v1 ∧ v1[0]? = some 0x0F#8 ∧ v1[24]? = some 0x00#8) :=
  ⟨by decide, ⟨by decide, stateOf_holds (by decide), by decide⟩,
    ⟨by decide, stateOf_holds (by decide), by decide, by decide⟩,
    ⟨by decide, stateOf_holds (by decide), by decide, by decide⟩⟩

theorem witness_TryDecodeCornerCases :
    (stateOf (v1.take 24)).fillCount.val < 25 ∧ (stateOf v1).fillCount.val = 25 ∧
    exec .tryDecode (stateOf v1) = .next (nextOf (exec .tryDecode (stateOf v1))) ∧
    exec .reset (stateOf v1) = .next (nextOf (exec .reset (stateOf v1))) ∧
    ((stateOf v1).Holds v1 ∧ (stateOf (v1.set 23 0x0C#8)).Holds (v1.set 23 0x0C#8) ∧ v1.length = 25 ∧
      v1[0]? = some 0x0F#8 ∧ v1[24]? = some 0x00#8) ∧
    (exec .tryDecode (stateOf v1BadFooter) = .next (nextOf (exec .tryDecode (stateOf v1BadFooter))) ∧
      (nextOf (exec .tryDecode (stateOf v1BadFooter))).result = invalidResult .footerMismatch) :=
  ⟨by decide, by decide, by rfl, by rfl,
    ⟨stateOf_holds (by decide), stateOf_holds (by decide), by decide, by decide, by decide⟩, by rfl, by decide⟩

/-- Both errors, and a step that reports none. -/
theorem witness_FrameErrorsAreExactlyTheMismatches :
    (exec .tryDecode (stateOf v1BadHeader) = .next (nextOf (exec .tryDecode (stateOf v1BadHeader))) ∧
      (nextOf (exec .tryDecode (stateOf v1BadHeader))).result = invalidResult .headerMismatch) ∧
    (exec .tryDecode (stateOf v1BadFooter) = .next (nextOf (exec .tryDecode (stateOf v1BadFooter))) ∧
      (nextOf (exec .tryDecode (stateOf v1BadFooter))).result = invalidResult .footerMismatch) ∧
    exec .tryDecode State.reset = .next { State.reset with result := notReadyResult } :=
  ⟨⟨by rfl, by decide⟩, ⟨by rfl, by decide⟩, rfl⟩

theorem witness_ResultWordsAreTied :
    step (asking [.pins false true true 0 []] (stateOf v1BadFooter)) =
      .next (nextOf (exec .tryDecode (stateOf v1BadFooter))) ∧
    (nextOf (exec .tryDecode (stateOf v1BadFooter))).result =
      .decoded { res := .invalid, err := .footerMismatch, frame := none, ctrl := none } := ⟨by rfl, by decide⟩

/-- The operations of P1: ten bytes, TRY_DECODE, ten bytes, TRY_DECODE, five bytes. -/
def p1 : List Instr :=
  [.ingest (v1.take 10), .tryDecode, .ingest ((v1.drop 10).take 10), .tryDecode, .ingest (v1.drop 20)]

theorem witness_FrameInPiecesDecodes :
    State.reset.fillCount = 0 ∧ (∀ i ∈ p1, i = .tryDecode ∨ ∃ data : List Byte, i = .ingest data) ∧
    offered p1 = frameBytes (frameOfBytes v1) ∧ frameByte (frameOfBytes v1) 0 = 0x0F#8 ∧
    frameByte (frameOfBytes v1) 24 = 0x00#8 ∧
    ∀ pre post : List Instr, p1 = pre ++ .tryDecode :: post → (offered pre).length < 25 := by
  refine ⟨rfl, by simp [p1], by decide, by decide, by decide, ?_⟩
  intro pre post h
  rcases pre with _ | ⟨a, _ | ⟨b, _ | ⟨c, _ | ⟨d, _ | ⟨e, _⟩⟩⟩⟩⟩ <;> simp_all [p1]
  · obtain ⟨rfl, -⟩ := h
    decide
  · obtain ⟨rfl, rfl, rfl, -⟩ := h
    decide

/-- P1 run whole, with the results of `spec/95_test_vectors.md`. -/
theorem witness_P1_results :
    results (runOps (p1 ++ [.tryDecode]) State.reset) =
      some [.accepted 10, notReadyResult, .accepted 10, notReadyResult, .accepted 5,
        frameResult CtrlKind.specDefault (frameOfBytes v1)] := by decide

/-- P2: a bad window in one piece, then V3 in two. -/
theorem witness_RecoveryAfterBadHeader :
    State.reset.fillCount = 0 ∧ [v1BadHeader].flatten.length = 25 ∧ [v1BadHeader].flatten[0]? ≠ some 0x0F#8 ∧
    [v3.take 7, [], v3.drop 7].flatten = frameBytes (frameOfBytes v3) ∧ frameByte (frameOfBytes v3) 0 = 0x0F#8 ∧
    frameByte (frameOfBytes v3) 24 = 0x00#8 := by decide

theorem witness_FeedJudgesEveryWindowInOrder :
    [frameOfBytes v1BadFooter, frameOfBytes v3] ≠ [] ∧ State.reset.fillCount = 0 := by decide

/-- No whole window and one byte, and a rejected window followed by 24 bytes: the ends of the range. -/
theorem witness_FeedKeepsAPartialWindow :
    ([0x0F#8] : List Byte) ≠ [] ∧ v3.take 24 ≠ [] ∧ (v3.take 24).length < 25 ∧ State.reset.fillCount = 0 ∧
    results (feed ([frameOfBytes v1BadFooter].flatMap frameBytes ++ v3.take 24) State.reset) =
      some [invalidResult .footerMismatch, notReadyResult] := by decide

/-- The window of P4 (b), three bytes into VX, is VALID; one byte into V1 and twenty-four bytes into it are the ends
of the range, two and twenty-three the inner ends. -/
theorem witness_WindowOutOfStep :
    (frameByte (frameOfBytes vx) 0 = 0x0F#8 ∧ frameByte (frameOfBytes vx) 24 = 0x00#8 ∧
      frameByte (frameOfBytes vx) 3 = 0x0F#8 ∧ frameByte (frameOfBytes vx) (3 - 1) = 0x00#8 ∧
      classify (frameOfBytes (vx.drop 3 ++ vx.take 3)) = .valid) ∧
    [1, 2, 23, 24].map (fun n => classify (frameOfBytes (v1.drop n ++ v1.take n))) =
      [.badHeader, .badHeader, .badHeader, .badHeader] := by decide

theorem witness_OnlyTheseChangeTheFillCount :
    (exec .reset (stateOf v1) = .next State.reset ∧ State.reset.fillCount.val < (stateOf v1).fillCount.val) ∧
    (exec (.ingest [1#8]) State.reset = .next { stateOf [1#8] with result := .accepted 1 } ∧
      State.reset.fillCount.val < (stateOf [1#8]).fillCount.val) := ⟨⟨by rfl, by decide⟩, ⟨rfl, by decide⟩⟩

theorem witness_StepKeepsInv :
    (asking [.pins false true true 0 []] (stateOf v1)).Inv ∧
    step (asking [.pins false true true 0 []] (stateOf v1)) = .next (nextOf (exec .tryDecode (stateOf v1))) :=
  ⟨stateOf_inv (by decide), by rfl⟩

/-- A full buffer with each kind of request, and without one. -/
theorem witness_GoodStatesGoOn :
    (stateOf v1).Inv ∧ (stateOf v1).inputs = [] ∧ (asking [.pins false true true 0 []] (stateOf v1)).Inv ∧
    decode (.pins false true true 0 []) = .op .tryDecode ∧
    Instr.tryDecode.wf (asking [.pins false true true 0 []] (stateOf v1)).config = true ∧ Runnable .tryDecode ∧
    decode (.pins false false false 0 []) = .idle :=
  ⟨stateOf_inv (by decide), rfl, stateOf_inv (by decide), by decide, by decide, trivial, by decide⟩

theorem witness_StepTakesOneRequest :
    step (asking [.pins true false false 0 [], .stray []] (stateOf v1)) =
      .next (asking [.stray []] State.reset) := by rfl

/-- Two states that differ in a stale byte and in the last result. -/
theorem witness_StaleBytesAndOldResultsAreNeverSeen :
    Agree State.reset { State.reset with buf := [(3, 0xAA#8)], result := .axisEqual true } :=
  ⟨rfl, fun a ha => absurd ha (Nat.not_lt_zero a), rfl, rfl⟩

theorem witness_PureOperationsTouchNoState :
    IsPure (.axeq 0x3F800000#32 0x3F7FFFFE#32) ∧ Runnable (.axeq 0x3F800000#32 0x3F7FFFFE#32) :=
  ⟨trivial, by decide, by decide⟩

/-- The frame words of the three outcomes, and two frames alike in header and footer and in nothing else. -/
theorem witness_ClassifyReadsHeaderThenFooter :
    (0x0E#200).extractLsb' 0 8 ≠ 0x0F#8 ∧
    (badFooterFrame.extractLsb' 0 8 = 0x0F#8 ∧ badFooterFrame.extractLsb' 192 8 ≠ 0x00#8) ∧
    (plainFrame.extractLsb' 0 8 = 0x0F#8 ∧ plainFrame.extractLsb' 192 8 = 0x00#8) ∧
    plainFrame.extractLsb' 0 8 = (frameOfBytes v2).extractLsb' 0 8 ∧
    plainFrame.extractLsb' 192 8 = (frameOfBytes v2).extractLsb' 192 8 := by decide

theorem witness_GroupFormulasAreTheBitStream :
    0xFFFFFFFFFFFFFFFFFFFFFF = 0xFF + (0xFF <<< 8) + (0xFF <<< 16) + (0xFF <<< 24) + (0xFF <<< 32) + (0xFF <<< 40) +
      (0xFF <<< 48) + (0xFF <<< 56) + (0xFF <<< 64) + (0xFF <<< 72) + (0xFF <<< 80) := by decide

set_option maxRecDepth 4000 in
/-- Two frames that differ in every byte between header and footer, and two that differ in the reserved bits alone. -/
theorem witness_OnlyHeaderAndFooterAreChecked :
    (plainFrame.extractLsb' 0 8 = (frameOfBytes v2).extractLsb' 0 8 ∧
      plainFrame.extractLsb' 192 8 = (frameOfBytes v2).extractLsb' 192 8) ∧
    (∀ k : Nat, k < 188 ∨ 192 ≤ k →
      plainFrame.getLsbD k = (BitVec.ofNat 200 (0xF * 2 ^ 188 + 0x0F)).getLsbD k) := by
  refine ⟨by decide, fun k hk => ?_⟩
  by_cases h : k < 200
  · have : ∀ j : Fin 200, (j.val < 188 ∨ 192 ≤ j.val) →
        plainFrame.getLsbD j.val = (BitVec.ofNat 200 (0xF * 2 ^ 188 + 0x0F)).getLsbD j.val := by decide
    exact this ⟨k, h⟩ hk
  · rw [BitVec.getLsbD_of_ge _ _ (by omega), BitVec.getLsbD_of_ge _ _ (by omega)]

/-- The edges of the dead zone, of the clamp and of the range between. -/
theorem witness_AxisIntegerForm :
    [985, 1015, 1800, 200, 984, 1016, 201, 1799].map (fun raw : Nat => ((BitVec.ofNat 11 raw).toNat : Int) - 1000) =
      [-15, 15, 800, -800, -16, 16, -799, 799] := by decide

/-- The pattern next to AXIS(1400), which is 3F000000. -/
theorem witness_AxisIsTheNearestBinary32 :
    f32Finite 0x3F000001#32 = true ∧ f32Value 0x3F000001#32 ≠ f32Value (axis (1400#11).toNat) := by
  have h : f32Scaled 0x3F000001#32 ≠ f32Scaled (axis (1400#11).toNat) := by decide
  refine ⟨by decide, fun he => h ?_⟩
  have h2 : (2 : Rat) ^ 149 ≠ 0 := by norm_num
  exact_mod_cast (div_left_inj' h2).mp he

/-- The ends of every range the clauses name. -/
theorem witness_AxisShape :
    f32Value (axis (1000#11).toNat) = 0 ∧ 1000 ≤ 1000 ∧ (0#11).toNat ≤ (2047#11).toNat ∧
    ((200#11).toNat < (984#11).toNat ∧ 200 ≤ (200#11).toNat ∧ (984#11).toNat ≤ 984) ∧
    ((1016#11).toNat < (1800#11).toNat ∧ 1016 ≤ (1016#11).toNat ∧ (1800#11).toNat ≤ 1800) := by
  have h : f32Scaled (axis (1000#11).toNat) = 0 := by decide
  exact ⟨by rw [f32Value, h]; norm_num, by decide, by decide, by decide, by decide⟩

/-- Operands at the bound of the tolerance, and the largest finite pattern. -/
theorem witness_AxeqIsTheToleranceEquality :
    (0x3F800000#32).extractLsb' 23 8 ≠ 255#8 ∧ (0x3F7FFFFE#32).extractLsb' 23 8 ≠ 255#8 ∧
    (0x7F7FFFFF#32).extractLsb' 23 8 ≠ 255#8 := by decide

/-- Signed zeros, the least subnormal and the largest finite pattern. -/
theorem witness_AxeqOnAxisValuesIsEquality :
    [0x00000000#32, 0x80000000#32, 0x00000001#32, 0x7F7FFFFF#32, 0xFF7FFFFF#32].map f32Finite =
      [true, true, true, true, true] := by decide

/-- Each kind of a field, and each of the four fields. -/
theorem witness_CtrlmapAssignsTheChannels :
    CtrlKind.specDefault.rightTrigger = .axis ∧ CtrlKind.specDefault.rightShoulder = .threeWay ∧
    cal .axis 1016 = .axis (axis 1016) ∧ cal .button 1001 = .button .pressed ∧ cal .threeWay 200 = .threeWay .down := by
  decide

/-- Channels that differ from the eighth on only. -/
theorem witness_CtrlmapFieldsAreIndependent :
    (∀ (j : Nat) (h : j < 8), (sixteen 200#11)[j] = ((sixteen 200#11).set 8 1#11)[j]) ∧
    sixteen 200#11 ≠ (sixteen 200#11).set 8 1#11 := by decide

end Sys2Proof.Tests
end

section
/-! PROOFS. The state right after RESET (`spec/10_state.md` rule R32). -/

namespace Sys2Proof.Machine

/-- Everything RESET can do: it discards the buffer and holds no result (R91). -/
theorem exec_reset_eq_next {s t : State} : exec .reset s = .next t ↔ t = { discard s with result := .nothing } :=
  answer_eq_next

/-- With `fill_count` 0 no offset lies below it, so no byte can be read (R23). -/
theorem allStale_of_fillCount_eq_zero {s : State} (h : s.fillCount = 0) : AllStale s := by
  intro a
  rcases readByte_cases s a with ⟨b, -, hlt, -⟩ | ⟨hstale, -⟩
  · simp [h] at hlt
  · exact hstale

/-- Settles O10: the buffer is stale because `fill_count` is 0, at creation and in the one state RESET leaves. -/
theorem resetStateIsEmpty : Obligations.ResetStateIsEmpty := by
  refine ⟨⟨reset_fillCount, allStale_of_fillCount_eq_zero reset_fillCount, reset_result⟩, fun s t h => ?_⟩
  obtain rfl := exec_reset_eq_next.mp h
  exact ⟨discard_fillCount s, allStale_of_fillCount_eq_zero (discard_fillCount s), rfl⟩

end Sys2Proof.Machine
end

section
/-! PROOFS. The command interface (`spec/30_encoding.md` rule R71): what each setting of the pins asks for. -/

namespace Sys2Proof.Machine

/-- `rst` wins over every other pin. -/
theorem decode_pins_rst (cmdValid cmd : Bool) (n : Nat) (data : List Byte) :
    decode (.pins true cmdValid cmd n data) = .op .reset := rfl

/-- Without `rst` and `cmd_valid` nothing is asked, whatever `cmd`, `n` and `data` are. -/
theorem decode_pins_idle (cmd : Bool) (n : Nat) (data : List Byte) :
    decode (.pins false false cmd n data) = .idle := rfl

/-- `cmd` 1 is TRY_DECODE, which looks at neither `n` nor `data`. -/
theorem decode_pins_tryDecode (n : Nat) (data : List Byte) :
    decode (.pins false true true n data) = .op .tryDecode := rfl

/-- `cmd` 0 is INGEST of the first `n` bytes that `data` carries. -/
theorem decode_pins_ingest {n : Nat} {data : List Byte} (h : n ≤ data.length) :
    decode (.pins false true false n data) = .op (.ingest (data.take n)) := if_pos h

/-- A step carries out the next request at the state without it. -/
theorem step_of_inputs {s : State} {r : Request} {rest : List Request} (h : s.inputs = r :: rest) :
    step s = runDecoded (decode r) { s with inputs := rest } := by
  simp [step, h]

/-- Settles O5: one equation of the decoder for each setting of the pins; the idle one makes the step idle. -/
theorem pinsChooseTheOperation : Obligations.PinsChooseTheOperation := by
  refine ⟨decode_pins_rst, fun n data more hn => ?ingest, decode_pins_tryDecode, fun cmd n data rest s hs => ?idle⟩
  case ingest =>
    subst hn
    simp [decode_pins_ingest]
  case idle =>
    rw [step_of_inputs hs, decode_pins_idle]
    rfl

end Sys2Proof.Machine
end

section
/-! PROOFS. What of a frame is looked at (`spec/30_encoding.md` rules R62, R65): CLASSIFY sees the header and the footer
byte, UNPACK the bytes of the two groups and the four low bits of the flag byte. -/

namespace Sys2Proof.Machine

/-- Only the header and the footer byte decide the class. -/
theorem classify_congr {f g : FrameWord} (hh : frameByte f headerPos = frameByte g headerPos)
    (hf : frameByte f footerPos = frameByte g footerPos) : classify f = classify g := by
  simp only [classify, hh, hf]

/-- Two frames with the same bits in byte `n` have the same byte `n`. -/
theorem frameByte_congr {f g : FrameWord} {n : Nat}
    (h : ∀ k < 8, f.getLsbD (8 * n + k) = g.getLsbD (8 * n + k)) : frameByte f n = frameByte g n :=
  BitVec.eq_of_getLsbD_eq fun k hk => by
    rw [frameByte_getLsbD f n hk, frameByte_getLsbD g n hk, h k hk]

/-- GROUP looks at its own eleven bytes only. -/
theorem groupAt_congr {f g : FrameWord} {base : Nat}
    (h : ∀ i < 11, frameByte f (base + i) = frameByte g (base + i)) : groupAt f base = groupAt g base := by
  have h0 : frameByte f base = frameByte g base := h 0 (by decide)
  simp (disch := decide) only [groupAt, h0, h]

/-- The flags of UNPACK are bits 184 to 187 of the frame word (R62). -/
theorem unpack_flags (f : FrameWord) :
    (unpack f).ch17 = f.getLsbD 184 ∧ (unpack f).ch18 = f.getLsbD 185 ∧
      (unpack f).frameLost = f.getLsbD 186 ∧ (unpack f).failsafe = f.getLsbD 187 := by
  obtain ⟨h17, h18, hlost, hsafe⟩ := flag_bits (frameByte f flagPos)
  exact ⟨h17.trans (frameByte_getLsbD f 23 (by decide)), h18.trans (frameByte_getLsbD f 23 (by decide)),
    hlost.trans (frameByte_getLsbD f 23 (by decide)), hsafe.trans (frameByte_getLsbD f 23 (by decide))⟩

/-- Frames with the same payload bytes 1 to 22 unpack to the same channels. -/
theorem unpack_ch_congr {f g : FrameWord} (h : ∀ n, 1 ≤ n → n ≤ 22 → frameByte f n = frameByte g n) :
    (unpack f).ch = (unpack g).ch := by
  have hA : groupAt f groupAPos = groupAt g groupAPos :=
    groupAt_congr fun i hi => h (1 + i) (by omega) (by omega)
  have hB : groupAt f groupBPos = groupAt g groupBPos :=
    groupAt_congr fun i hi => h (12 + i) (by omega) (by omega)
  simp only [unpack, hA, hB]

/-- UNPACK looks at the payload bits 8 to 183 and the flag bits 184 to 187, and at no other. -/
theorem unpack_congr {f g : FrameWord} (h : ∀ k, 8 ≤ k → k < 188 → f.getLsbD k = g.getLsbD k) :
    unpack f = unpack g := by
  have hch : (unpack f).ch = (unpack g).ch :=
    unpack_ch_congr fun n h1 h22 => frameByte_congr fun k hk => h _ (by omega) (by omega)
  obtain ⟨f17, f18, flost, fsafe⟩ := unpack_flags f
  obtain ⟨g17, g18, glost, gsafe⟩ := unpack_flags g
  rw [DecodedFrame.mk.injEq, f17, g17, f18, g18, flost, glost, fsafe, gsafe]
  exact ⟨hch, h 184 (by decide) (by decide), h 185 (by decide) (by decide), h 186 (by decide) (by decide),
    h 187 (by decide) (by decide)⟩

/-- Settles O32: bits 7:0 and 199:192 are the header and the footer byte, all that CLASSIFY sees; and the reserved
bits lie outside bits 8 to 187, all that UNPACK sees. -/
theorem onlyHeaderAndFooterAreChecked : Obligations.OnlyHeaderAndFooterAreChecked :=
  ⟨fun _ _ hheader hfooter => classify_congr hheader hfooter,
    fun _ _ h => unpack_congr fun k _ hk => h k (.inl hk)⟩

end Sys2Proof.Machine
end

section
/-! PROOFS. Steps that carry out no command (`spec/40_accumulator.md` rules R90, R91): any number of idle steps, and
RESET, which a command in the same step does not disturb. -/

namespace Sys2Proof.Machine

/-- A run whose first step goes on is the run of the remaining steps from there. -/
theorem core_run_succ {s t : State} (h : step s = .next t) (k : Nat) :
    Sys2Proof.core.run (k + 1) s = Sys2Proof.core.run k t := by
  have hstep : Sys2Proof.core.step s = .next t := h
  simp only [Host.Core.run, hstep]

/-- A step whose next request is idle, or that has none left, uses that request up and returns nothing. -/
theorem step_of_idle {s : State} (h : ∀ r ∈ s.inputs.take 1, decode r = .idle) :
    step s = .next { s with inputs := s.inputs.drop 1, result := .nothing } := by
  cases hs : s.inputs with
  | nil => simp [step, hs, idleStep, answer]
  | cons r rest =>
    have hr : decode r = .idle := h r (by simp [hs])
    rw [step_of_inputs hs, hr]
    rfl

/-- Steps that meet idle requests only, or no request any more, use those requests up and return nothing. -/
theorem core_run_of_idle (k : Nat) {s : State} (h : ∀ r ∈ s.inputs.take (k + 1), decode r = .idle) :
    Sys2Proof.core.run (k + 1) s = .next { s with inputs := s.inputs.drop (k + 1), result := .nothing } := by
  induction k generalizing s with
  | zero => exact core_run_succ (step_of_idle h) 0
  | succ k ih =>
    have hfirst : ∀ r ∈ s.inputs.take 1, decode r = .idle := fun r hr =>
      h r (List.take_subset_take_left _ (by omega) hr)
    have hlater : ∀ r ∈ (s.inputs.drop 1).take (k + 1), decode r = .idle := fun r hr =>
      h r (List.mem_of_mem_drop (by rwa [List.take_drop, Nat.add_comm] at hr))
    rw [core_run_succ (step_of_idle hfirst), ih hlater]
    simp [Nat.add_comm]

/-- Settles O9: with `rst` and `cmd_valid` low the request is idle, and a run of idle steps changes nothing. -/
theorem idleStepsChangeNothing : Obligations.IdleStepsChangeNothing := by
  intro k s h
  refine core_run_of_idle k fun r hr => ?_
  obtain ⟨cmd, n, data, rfl⟩ := h r hr
  exact decode_pins_idle cmd n data

/-- A well-formed operation that is asked for is carried out. -/
theorem runDecoded_of_wf {i : Instr} {s : State} (h : i.wf s.config = true) : runDecoded (.op i) s = exec i s :=
  if_pos h

/-- Settles O11: the state RESET leaves has `fill_count` 0, so it is stale; and `rst` alone decides the decoding. -/
theorem resetEmptiesTheAccumulator : Obligations.ResetEmptiesTheAccumulator := by
  refine ⟨fun s => ?completes, fun cmdValid cmd n data rest s hs => ?wins⟩
  case completes =>
    exact ⟨_, exec_reset_eq_next.mpr rfl, discard_fillCount s, allStale_of_fillCount_eq_zero (discard_fillCount s),
      rfl, rfl, rfl⟩
  case wins =>
    rw [step_of_inputs hs, decode_pins_rst, runDecoded_of_wf rfl]

end Sys2Proof.Machine
end

section
/-! PROOFS. INGEST (`spec/40_accumulator.md` rule R93). -/

namespace Sys2Proof.Machine

/-- Settles O12: the state of `execIngest_eq`, its count by `advance_acceptedOf` and its bytes by `read_append`. -/
theorem ingestAppendsWhatFits : Obligations.IngestAppendsWhatFits := by
  intro data s
  have hk := acceptedOf_val s.fillCount data.length
  refine ⟨_, acceptedOf s.fillCount data.length, ?asked, execIngest_eq data s, hk, rfl, ?count, fun i hi => ?stored,
    fun a ha => ?kept, rfl, rfl⟩
  case asked => rw [decode_pins_ingest le_rfl, List.take_length]
  case count => rw [hk]; exact advance_acceptedOf s.fillCount data.length
  case stored => rw [read_append, if_pos (by omega), Nat.add_sub_cancel_left]
  case kept => rw [read_append, if_neg (by omega)]

end Sys2Proof.Machine
end

section
/-! PROOFS. The judged window (`spec/40_accumulator.md` rules R95, R96): CLASSIFY, and TRY_DECODE, which turns the class
of a full window into its result. -/

namespace Sys2Proof.Machine

/-- Under a wrong header the footer is not looked at. -/
theorem classify_congr_of_header {f g : FrameWord} (hh : frameByte f 0 = frameByte g 0)
    (hf : frameByte f 0 = 0x0F#8 → frameByte f 24 = frameByte g 24) : classify f = classify g := by
  by_cases hright : frameByte f 0 = 0x0F#8
  · exact classify_congr hh (hf hright)
  · rw [(classify_cases f).1.mpr hright, (classify_cases g).1.mpr (hh ▸ hright)]

/-- Settles O29: each row answers with the class, which `classify_cases` reads from bytes 0 and 24. -/
theorem classifyReadsHeaderThenFooter : Obligations.ClassifyReadsHeaderThenFooter := by
  refine ⟨fun f s => ?_, fun f g hh hf => classify_congr_of_header hh hf⟩
  obtain ⟨badHeader, badFooter, valid⟩ := classify_cases f
  exact ⟨classify f, rfl, rfl, rfl, badHeader.mpr, fun h0 h24 => badFooter.mpr ⟨h0, h24⟩,
    fun h0 h24 => valid.mpr ⟨h0, h24⟩⟩

/-- Byte `i` of the frame word of 25 bytes is the byte listed at `i`. -/
theorem frameByte_frameOfBytes_eq_iff {bs : List Byte} (hl : bs.length = 25) {i : Nat} (hi : i < 25) {b : Byte} :
    frameByte (frameOfBytes bs) i = b ↔ bs[i]? = some b := by
  have hib : i < bs.length := by omega
  rw [frameByte_frameOfBytes hl, List.getD_eq_getElem _ _ hib, List.getElem?_eq_getElem hib, Option.some_inj]

theorem windowResult_of_badHeader (kind : CtrlKind) {f : FrameWord} (h0 : frameByte f 0 ≠ 0x0F#8) :
    windowResult kind f = invalidResult .headerMismatch := if_pos h0

theorem windowResult_of_badFooter (kind : CtrlKind) {f : FrameWord} (h0 : frameByte f 0 = 0x0F#8)
    (h24 : frameByte f 24 ≠ 0x00#8) : windowResult kind f = invalidResult .footerMismatch := by
  simp [windowResult, h0, h24]

theorem windowResult_of_valid (kind : CtrlKind) {f : FrameWord} (h0 : frameByte f 0 = 0x0F#8)
    (h24 : frameByte f 24 = 0x00#8) : windowResult kind f = frameResult kind f := by
  simp [windowResult, h0, h24]

/-- A judged window always gives a TRY_DECODE record. -/
theorem exists_windowResult_eq_decoded (kind : CtrlKind) (f : FrameWord) :
    ∃ r : DecodeResult, windowResult kind f = .decoded r := by
  unfold windowResult
  split_ifs <;> exact ⟨_, rfl⟩

/-- Settles O14: `execTryDecode_notFull` and `execTryDecode_holds` give the two states, and the record of a full window
is the one its header and footer bytes determine. -/
theorem tryDecodeJudgesTheWindow : Obligations.TryDecodeJudgesTheWindow := by
  refine ⟨decode_pins_tryDecode, fun s hs => execTryDecode_notFull hs, fun s b hl hb => ?_⟩
  have hheader : frameByte (frameOfBytes b) 0 = 0x0F#8 ↔ b[0]? = some 0x0F#8 :=
    frameByte_frameOfBytes_eq_iff hl (by decide)
  have hfooter : frameByte (frameOfBytes b) 24 = 0x00#8 ↔ b[24]? = some 0x00#8 :=
    frameByte_frameOfBytes_eq_iff hl (by decide)
  obtain ⟨r, hr⟩ := exists_windowResult_eq_decoded s.config.ctrlKind (frameOfBytes b)
  have hrecord : ∀ {d : DecodeResult}, windowResult s.config.ctrlKind (frameOfBytes b) = .decoded d → r = d :=
    fun hd => Result.decoded.inj (hr.symm.trans hd)
  refine ⟨_, r, execTryDecode_holds hb hl, hr, discard_fillCount s,
    allStale_of_fillCount_eq_zero (discard_fillCount s), ⟨rfl, rfl⟩, fun h0 => ?badHeader, fun h0 h24 => ?badFooter,
    fun h0 h24 => ⟨_, rfl, ?valid⟩⟩
  case badHeader => exact hrecord (windowResult_of_badHeader _ (mt hheader.mp h0))
  case badFooter => exact hrecord (windowResult_of_badFooter _ (hheader.mpr h0) (mt hfooter.mp h24))
  case valid => exact hrecord (windowResult_of_valid _ (hheader.mpr h0) (hfooter.mpr h24))

end Sys2Proof.Machine
end

section
/-! PROOFS. CHVAL (`spec/41_unpacker.md` rule R110): its value is the remainder of its input by 2048. -/

namespace Sys2Proof.Machine

/-- The eleven-bit width takes again the remainder that the mask has taken. -/
@[simp] theorem chval_toNat (v : Nat) : (chval v).toNat = v % 2048 := by
  rw [chval, and_chMask, BitVec.toNat_ofNat]
  exact Nat.mod_mod v 2048

theorem chval_eq_ofNat (v : Nat) : chval v = BitVec.ofNat 11 v :=
  BitVec.eq_of_toNat_eq (by rw [chval_toNat, BitVec.toNat_ofNat])

/-- A channel value passes CHVAL unchanged. -/
theorem chval_channel (c : Channel) : chval c.toNat = c := by
  rw [chval_eq_ofNat, BitVec.ofNat_toNat, BitVec.setWidth_eq]

/-- CHVAL of a raw word is its bits 10:0. -/
theorem chval_rawWord (raw : RawWord) : chval raw.toNat = raw.extractLsb' 0 11 := by
  rw [chval_eq_ofNat, BitVec.extractLsb', Nat.shiftRight_zero]

theorem exec_chval (raw : RawWord) (s : State) :
    exec (.chval raw) s = .next { s with result := .channel (chval raw.toNat) } := rfl

/-- Settles O35: CHVAL answers with bits 10:0 of its raw word; on every number it is the remainder by 2048, which a
number equals exactly when it is at most 2047; and it leaves a channel value, such as its own, as it is. -/
theorem chvalKeepsTheLowElevenBits : Obligations.ChvalKeepsTheLowElevenBits := by
  refine ⟨fun raw s => ?completes, fun v => ⟨chval_toNat v, ?mask, ?identity, chval_channel (chval v)⟩⟩
  case completes => rw [exec_chval, chval_rawWord]
  case mask => exact (chval_toNat v).trans (and_chMask v).symm
  case identity => rw [chval_toNat]; omega

end Sys2Proof.Machine
end

section
/-! PROOFS. BUTTON and THREEWAY (`spec/42_calibrator.md` rules R134, R136): what each value of a control says about the
raw channel. -/

namespace Sys2Proof.Machine

theorem exec_button (raw : Channel) (s : State) :
    exec (.button raw) s = .next { s with result := .button (button raw.toNat) } := rfl

theorem exec_threeway (raw : Channel) (s : State) :
    exec (.threeway raw) s = .next { s with result := .threeWay (threeWay raw.toNat) } := rfl

theorem button_eq_pressed_iff {raw : Nat} : button raw = .pressed ↔ 1000 < raw := by
  unfold button
  split_ifs with habove <;> simpa using habove

theorem button_eq_released_iff {raw : Nat} : button raw = .released ↔ raw ≤ 1000 := by
  unfold button
  split_ifs with habove <;> simpa using habove

theorem threeWay_eq_up_iff {raw : Nat} : threeWay raw = .up ↔ raw = 1800 := by
  unfold threeWay
  split_ifs with hup hdown <;> simp [hup]

/-- TW_DOWN is looked at second, but no value is both TW_UP and TW_DOWN. -/
theorem threeWay_eq_down_iff {raw : Nat} : threeWay raw = .down ↔ raw = 200 := by
  unfold threeWay
  split_ifs with hup hdown
  · simp [hup]
  · simp [hdown]
  · simp [hdown]

theorem threeWay_eq_mid_iff {raw : Nat} : threeWay raw = .mid ↔ raw ≠ 1800 ∧ raw ≠ 200 := by
  unfold threeWay
  split_ifs with hup hdown
  · simp [hup]
  · simp [hdown]
  · simp [hup, hdown]

/-- Settles O39: BUTTON answers with `button raw`, and each of its two values has its own range. -/
theorem buttonIsStrictlyAboveThreshold : Obligations.ButtonIsStrictlyAboveThreshold := fun raw s =>
  ⟨_, exec_button raw s, button_eq_pressed_iff, button_eq_released_iff⟩

/-- Settles O40: THREEWAY answers with `threeWay raw`, and each of its three values has its own condition. -/
theorem threewayMatchesExactly : Obligations.ThreewayMatchesExactly := fun raw s =>
  ⟨_, exec_threeway raw s, threeWay_eq_up_iff, threeWay_eq_down_iff, threeWay_eq_mid_iff⟩

end Sys2Proof.Machine
end

section
/-! PROOFS. CTRLMAP (`spec/42_calibrator.md` rule R140): the sticks are AXIS of their channels by definition, and each
other field is CAL of its channel under the kind CTRL_KIND gives it. -/

namespace Sys2Proof.Machine

theorem exec_ctrlmap (ch : Channels) (s : State) :
    exec (.ctrlmap ch) s = .next { s with result := .controls (ctrlmap s.config.ctrlKind ch) } := rfl

/-- CAL under each kind of a field. -/
theorem cal_of_kind (k : ControlKind) (raw : Nat) :
    (k = .axis → cal k raw = .axis (axis raw)) ∧ (k = .button → cal k raw = .button (button raw)) ∧
      (k = .threeWay → cal k raw = .threeWay (threeWay raw)) := by
  refine ⟨?_, ?_, ?_⟩ <;> rintro rfl <;> rfl

/-- Settles O43: CTRLMAP answers with `ctrlmap`, whose four fields outside the sticks are CAL of channels 4 to 7. -/
theorem ctrlmapAssignsTheChannels : Obligations.CtrlmapAssignsTheChannels := by
  refine fun ch s => ⟨_, exec_ctrlmap ch s, rfl, rfl, rfl, rfl, fun k v j hfield => ?_⟩
  have hv : v = cal k ch[j].toNat := by
    obtain ⟨rfl, rfl, rfl⟩ | ⟨rfl, rfl, rfl⟩ | ⟨rfl, rfl, rfl⟩ | ⟨rfl, rfl, rfl⟩ := hfield <;> rfl
  rw [hv]
  exact cal_of_kind k ch[j].toNat

end Sys2Proof.Machine
end

section
/-! PROOFS. The two frame-structure errors (`spec/60_exceptions.md` rules R160, R161): the record of an error comes from
a TRY_DECODE on a full buffer and from nothing else, and the record of a full buffer is `windowResult` of the frame word
that its bytes read as. -/

namespace Sys2Proof.Machine

theorem readByte_of_holds {s : State} {bs : List Byte} (hb : s.Holds bs) (hl : bs.length = 25) {a : Nat} (ha : a < 25) :
    readByte s a = .ok (frameByte (frameOfBytes bs) a) := by
  obtain ⟨hfill, hread⟩ := hb
  have hbyte : bs[a]? = some (frameByte (frameOfBytes bs) a) := (frameByte_frameOfBytes_eq_iff hl ha).mp rfl
  exact readByte_eq_ok.mpr ⟨by omega, by rw [hread a (by omega), hbyte]⟩

theorem windowResult_eq_headerMismatch_iff (kind : CtrlKind) (f : FrameWord) :
    windowResult kind f = invalidResult .headerMismatch ↔ frameByte f 0 ≠ 0x0F#8 := by
  refine ⟨fun hw h0 => ?_, windowResult_of_badHeader kind⟩
  by_cases h24 : frameByte f 24 = 0x00#8
  · simp [windowResult_of_valid kind h0 h24, frameResult, invalidResult] at hw
  · simp [windowResult_of_badFooter kind h0 h24, invalidResult] at hw

theorem windowResult_eq_footerMismatch_iff (kind : CtrlKind) (f : FrameWord) :
    windowResult kind f = invalidResult .footerMismatch ↔ frameByte f 0 = 0x0F#8 ∧ frameByte f 24 ≠ 0x00#8 := by
  refine ⟨fun hw => ?_, fun ⟨h0, h24⟩ => windowResult_of_badFooter kind h0 h24⟩
  by_cases h0 : frameByte f 0 = 0x0F#8
  · refine ⟨h0, fun h24 => ?_⟩
    simp [windowResult_of_valid kind h0 h24, frameResult, invalidResult] at hw
  · simp [windowResult_of_badHeader kind h0, invalidResult] at hw

/-- A window's record carries an error only when it is one of the two. -/
theorem windowResult_of_err {kind : CtrlKind} {f : FrameWord} {r : DecodeResult} (hw : windowResult kind f = .decoded r)
    (herr : r.err ≠ .none) :
    windowResult kind f = invalidResult .headerMismatch ∨ windowResult kind f = invalidResult .footerMismatch := by
  by_cases h0 : frameByte f 0 = 0x0F#8
  · by_cases h24 : frameByte f 24 = 0x00#8
    · rw [windowResult_of_valid kind h0 h24] at hw
      cases hw
      exact absurd rfl herr
    · exact .inr (windowResult_of_badFooter kind h0 h24)
  · exact .inl (windowResult_of_badHeader kind h0)

/-- A TRY_DECODE that goes on from a full buffer has read all 25 bytes and judged the frame word they make. -/
theorem exec_tryDecode_full {s t : State} (h : exec .tryDecode s = .next t) (hfull : s.fillCount.val = 25) :
    ∃ f : FrameWord, (∀ a : Nat, a < 25 → readByte s a = .ok (frameByte f a)) ∧
      t = { discard s with result := windowResult s.config.ctrlKind f } := by
  change execTryDecode s = .next t at h
  obtain ⟨hlt, -⟩ | ⟨-, bs, hl, hb, heq⟩ | ⟨-, e, -, heq⟩ := execTryDecode_cases s
  · omega
  · cases heq.symm.trans h
    exact ⟨frameOfBytes bs, fun a ha => readByte_of_holds hb hl ha, rfl⟩
  · cases heq.symm.trans h

/-- Only a TRY_DECODE on a full buffer reports an error. -/
theorem tryDecode_full_of_err {i : Instr} {s t : State} {r : DecodeResult} (h : exec i s = .next t)
    (hr : t.result = .decoded r) (herr : r.err ≠ .none) : i = .tryDecode ∧ s.fillCount.val = 25 := by
  obtain ⟨-, rfl⟩ | ⟨data, -, rfl⟩ | ⟨-, -, rfl⟩ | ⟨hi, hfull, -⟩ | ⟨-, r', hpure, rfl⟩ := exec_next_cases h
  · cases hr
  · cases hr
  · cases hr
    exact absurd rfl herr
  · exact ⟨hi, hfull⟩
  · exact absurd hr (hpure r)

theorem exec_headerMismatch_iff {i : Instr} {s t : State} (h : exec i s = .next t) :
    t.result = invalidResult .headerMismatch ↔
      i = .tryDecode ∧ s.fillCount.val = 25 ∧ ∃ b : Byte, readByte s 0 = .ok b ∧ b ≠ 0x0F#8 := by
  by_cases hjudges : i = .tryDecode ∧ s.fillCount.val = 25
  · obtain ⟨rfl, hfull⟩ := hjudges
    obtain ⟨f, hread, rfl⟩ := exec_tryDecode_full h hfull
    simp [hfull, hread, windowResult_eq_headerMismatch_iff]
  · exact iff_of_false (fun hr => hjudges (tryDecode_full_of_err h hr (by decide)))
      fun ⟨hi, hfull, _⟩ => hjudges ⟨hi, hfull⟩

theorem exec_footerMismatch_iff {i : Instr} {s t : State} (h : exec i s = .next t) :
    t.result = invalidResult .footerMismatch ↔
      i = .tryDecode ∧ s.fillCount.val = 25 ∧ readByte s 0 = .ok 0x0F#8 ∧
        ∃ b : Byte, readByte s 24 = .ok b ∧ b ≠ 0x00#8 := by
  by_cases hjudges : i = .tryDecode ∧ s.fillCount.val = 25
  · obtain ⟨rfl, hfull⟩ := hjudges
    obtain ⟨f, hread, rfl⟩ := exec_tryDecode_full h hfull
    simp [hfull, hread, windowResult_eq_footerMismatch_iff]
  · exact iff_of_false (fun hr => hjudges (tryDecode_full_of_err h hr (by decide)))
      fun ⟨hi, hfull, _⟩ => hjudges ⟨hi, hfull⟩

/-- An error record is one of the two, and the step that reports it leaves the accumulator EMPTY. -/
theorem exec_err_empties {i : Instr} {s t : State} {r : DecodeResult} (h : exec i s = .next t)
    (hr : t.result = .decoded r) (herr : r.err ≠ .none) :
    (t.result = invalidResult .headerMismatch ∨ t.result = invalidResult .footerMismatch) ∧ t.fillCount = 0 := by
  obtain ⟨rfl, hfull⟩ := tryDecode_full_of_err h hr herr
  obtain ⟨f, -, rfl⟩ := exec_tryDecode_full h hfull
  exact ⟨windowResult_of_err hr herr, discard_fillCount s⟩

/-- Settles O16: each error's cause is that of the judged window's record, and an error record comes from nothing else. -/
theorem frameErrorsAreExactlyTheMismatches : Obligations.FrameErrorsAreExactlyTheMismatches :=
  ⟨fun _ _ _ h => ⟨exec_headerMismatch_iff h, exec_footerMismatch_iff h, fun _ => exec_err_empties h⟩,
    rfl, rfl, rfl, rfl⟩

end Sys2Proof.Machine
end

section
/-! PROOFS. The rows of the opcode table against CLASSIFY (`spec/30_encoding.md` rules R64, R80): the mask of a row
keeps whole bytes, so a row matches exactly when the frame word has the row's bytes there. -/

namespace Sys2Proof.Machine

/-- A frame word is its 25 bytes. -/
theorem frameWord_ext {f g : FrameWord} (h : ∀ i < 25, frameByte f i = frameByte g i) : f = g := by
  refine BitVec.eq_of_getLsbD_eq fun k hk => ?_
  have hlow : k % 8 < 8 := Nat.mod_lt k (by decide)
  have hbit := congrArg (·.getLsbD (k % 8)) (h (k / 8) (by omega))
  simpa only [frameByte_getLsbD _ _ hlow, Nat.div_add_mod] using hbit

theorem frameByte_and (f g : FrameWord) (i : Nat) : frameByte (f &&& g) i = frameByte f i &&& frameByte g i :=
  BitVec.extractLsb'_and

/-- A mask over the bytes `kept`: the masked word is the pattern exactly when those bytes are the pattern's. -/
theorem and_eq_iff_frameByte (kept : List Nat) {mask pattern : FrameWord} (hkept : ∀ i ∈ kept, i < 25)
    (hmask : ∀ i < 25, frameByte mask i = if i ∈ kept then 0xFF#8 else 0x00#8)
    (hpattern : ∀ i < 25, i ∉ kept → frameByte pattern i = 0x00#8) (f : FrameWord) :
    f &&& mask = pattern ↔ ∀ i ∈ kept, frameByte f i = frameByte pattern i := by
  have hones (b : Byte) : b &&& 0xFF#8 = b := BitVec.and_allOnes
  constructor
  · rintro rfl i hi
    rw [frameByte_and, hmask i (hkept i hi), if_pos hi, hones]
  · refine fun h => frameWord_ext fun i hi => ?_
    rw [frameByte_and, hmask i hi]
    by_cases hmem : i ∈ kept
    · rw [if_pos hmem, hones, h i hmem]
    · rw [if_neg hmem, hpattern i hi hmem, BitVec.and_zero]

/-- The pattern of the rows VALID and BAD_FOOTER holds the header and a zero footer. -/
theorem frameByte_rowPattern : frameByte 0x0F#200 0 = 0x0F#8 ∧ frameByte 0x0F#200 24 = 0x00#8 := by decide

/-- The row VALID matches a right header with a right footer. -/
theorem validRow_matches_iff (f : FrameWord) :
    f &&& 0xFF0000000000000000000000000000000000000000000000FF#200 = 0x0F#200 ↔
      frameByte f 0 = 0x0F#8 ∧ frameByte f 24 = 0x00#8 := by
  rw [and_eq_iff_frameByte [0, 24] (by decide) (by decide) (by decide), List.forall_mem_cons, List.forall_mem_singleton,
    frameByte_rowPattern.1, frameByte_rowPattern.2]

/-- The row BAD_FOOTER matches a right header, whatever the footer is. -/
theorem badFooterRow_matches_iff (f : FrameWord) : f &&& 0xFF#200 = 0x0F#200 ↔ frameByte f 0 = 0x0F#8 := by
  rw [and_eq_iff_frameByte [0] (by decide) (by decide) (by decide), List.forall_mem_singleton, frameByte_rowPattern.1]

/-- The first matching row is the one CLASSIFY computes. -/
theorem rowClass_frameRows (f : FrameWord) : rowClass frameRows f = some (classify f) := by
  obtain ⟨badHeader, badFooter, valid⟩ := classify_cases f
  simp only [frameRows, rowClass, validRow_matches_iff, badFooterRow_matches_iff, BitVec.and_zero, if_true]
  split_ifs with hboth hheader
  · rw [valid.mpr hboth]
  · rw [badFooter.mpr ⟨hheader, fun h24 => hboth ⟨hheader, h24⟩⟩]
  · rw [badHeader.mpr hheader]

/-- Settles O6: the rows by `rowClass_frameRows`, the three conditions by `classify_cases`. -/
theorem frameRowsAgreeWithClassify : Obligations.FrameRowsAgreeWithClassify := fun f =>
  have ⟨badHeader, badFooter, valid⟩ := classify_cases f
  ⟨rowClass_frameRows f, valid, badFooter, badHeader⟩

end Sys2Proof.Machine
end

section
/-! PROOFS. Encoding and decoding operations (`spec/30_encoding.md` rules R71, R77): each function unit reads its
operand word as the operand that was encoded, and takes no word that is not an encoding. -/

namespace Sys2Proof.Machine

/-- What the CLASSIFY unit decodes a frame word to: the row of its class. -/
def classifyRow (f : FrameWord) : FrameClass → Instr
  | .valid => .classifyValid f
  | .badFooter => .classifyBadFooter f
  | .badHeader => .classifyBadHeader f

theorem decodeClassify_eq (f : FrameWord) : decodeClassify f = .op (classifyRow f (classify f)) := by
  rw [decodeClassify, rowClass_frameRows]
  cases classify f <;> rfl

theorem decodeOperand_classify (f : FrameWord) :
    decodeOperand .classify f.toNat = .op (classifyRow f (classify f)) := by
  rw [decodeOperand, BitVec.ofNat_toNat, BitVec.setWidth_eq, decodeClassify_eq]

theorem decodeOperand_chval (r : RawWord) : decodeOperand .chval r.toNat = .op (.chval r) := by
  simp [decodeOperand]

theorem decodeOperand_unpack (f : FrameWord) : decodeOperand .unpack f.toNat = .op (.unpack f) := by
  simp [decodeOperand]

theorem decodeOperand_axis (r : Channel) : decodeOperand .axis r.toNat = .op (.axis r) := by
  simp [decodeOperand]

theorem decodeOperand_button (r : Channel) : decodeOperand .button r.toNat = .op (.button r) := by
  simp [decodeOperand]

theorem decodeOperand_threeway (r : Channel) : decodeOperand .threeway r.toNat = .op (.threeway r) := by
  simp [decodeOperand]

theorem decodeOperand_ctrlmap (w : ChannelsWord) :
    decodeOperand .ctrlmap w.toNat = .op (.ctrlmap (channelsOfWord w)) := by
  simp [decodeOperand]

/-- The operand word of AXEQ is `a` above `b`. -/
theorem decodeOperand_axeq (a b : F32) : decodeOperand .axeq (a.toNat * 2 ^ 32 + b.toNat) = .op (.axeq a b) := by
  have ha := a.isLt
  have hb := b.isLt
  have hhigh : BitVec.ofNat 32 ((a.toNat * 2 ^ 32 + b.toNat) / 2 ^ 32) = a :=
    BitVec.eq_of_toNat_eq (by rw [BitVec.toNat_ofNat]; omega)
  have hlow : BitVec.ofNat 32 (a.toNat * 2 ^ 32 + b.toNat) = b :=
    BitVec.eq_of_toNat_eq (by rw [BitVec.toNat_ofNat]; omega)
  rw [decodeOperand, hhigh, hlow]

/-- A 64-bit word is its high half above its low half. -/
theorem toNat_eq_halves (w : BitVec 64) :
    w.toNat = (w.extractLsb' 32 32).toNat * 2 ^ 32 + (w.extractLsb' 0 32).toNat := by
  have hw := w.isLt
  simp only [BitVec.extractLsb'_toNat, Nat.shiftRight_eq_div_pow]
  omega

/-- Settles O4: `decodeOperand` of each unit, one lemma per unit. -/
theorem operandWordsFollowTheTable : Obligations.OperandWordsFollowTheTable := by
  refine ⟨decodeOperand_chval, fun r => ⟨decodeOperand_axis r, decodeOperand_button r, decodeOperand_threeway r⟩,
    fun w => ?axeq, fun f => ⟨decodeOperand_unpack f, ?_, ?_, ?_⟩,
    fun w => ⟨channelsOfWord w, decodeOperand_ctrlmap w, fun j hj => Vector.getElem_ofFn hj⟩⟩
  case axeq => rw [← decodeOperand_axeq, ← toNat_eq_halves]
  all_goals
    intro hclass
    rw [decodeOperand_classify, hclass]
    rfl

/-- An encoded operand word is decoded as the unit reads it. -/
theorem decode_unit_natToBytes (u : FnUnit) {v : Nat} (h : v < 2 ^ operandBits u) :
    decode (.unit u (natToBytes (operandBytes u) v)) = decodeOperand u v := decodeUnit_natToBytes u h

/-- Settles O2: every encoded operand word fits its unit, which reads it back; the row of CLASSIFY is that of the
frame's class because the operation is well-formed. -/
theorem decodeOfEncode : Obligations.DecodeOfEncode := by
  have hclassify (f : FrameWord) {c : FrameClass} (hc : classify f = c) :
      decode (.unit .classify (natToBytes 25 f.toNat)) = .op (classifyRow f c) := by
    subst hc
    exact (decode_unit_natToBytes .classify f.isLt).trans (decodeOperand_classify f)
  intro cfg i hwf
  cases i with
  | reset => rfl
  | ingest data => exact (decode_pins_ingest le_rfl).trans (by rw [List.take_length])
  | tryDecode => rfl
  | classifyValid f => exact hclassify f (of_decide_eq_true hwf)
  | classifyBadFooter f => exact hclassify f (of_decide_eq_true hwf)
  | classifyBadHeader f => exact hclassify f (of_decide_eq_true hwf)
  | chval raw => exact (decode_unit_natToBytes .chval raw.isLt).trans (decodeOperand_chval raw)
  | unpack f => exact (decode_unit_natToBytes .unpack f.isLt).trans (decodeOperand_unpack f)
  | axis raw => exact (decode_unit_natToBytes .axis raw.isLt).trans (decodeOperand_axis raw)
  | button raw => exact (decode_unit_natToBytes .button raw.isLt).trans (decodeOperand_button raw)
  | threeway raw => exact (decode_unit_natToBytes .threeway raw.isLt).trans (decodeOperand_threeway raw)
  | axeq a b =>
    have hfits : a.toNat * 2 ^ 32 + b.toNat < 2 ^ 64 := by
      have ha := a.isLt
      have hb := b.isLt
      omega
    exact (decode_unit_natToBytes .axeq hfits).trans (decodeOperand_axeq a b)
  | ctrlmap ch =>
    refine (decode_unit_natToBytes .ctrlmap (wordOfChannels ch).isLt).trans ?_
    rw [decodeOperand_ctrlmap, channelsOfWord_wordOfChannels]

/-- The sixteen channels of a word hold all of its 176 bits. -/
theorem channelsOfWord_injective {w w' : ChannelsWord} (h : channelsOfWord w = channelsOfWord w') : w = w' := by
  refine BitVec.eq_of_getLsbD_eq fun k hk => ?_
  have hj : k / 11 < 16 := by omega
  have hlow : k % 11 < 11 := Nat.mod_lt k (by decide)
  have hbit := congrArg (fun ch : Channels => ch[k / 11].getLsbD (k % 11)) h
  simpa [channelsOfWord, hlow, Nat.div_add_mod] using hbit

theorem wordOfChannels_channelsOfWord (w : ChannelsWord) : wordOfChannels (channelsOfWord w) = w :=
  channelsOfWord_injective (channelsOfWord_wordOfChannels _)

/-- What a unit takes is a word of its width in its number of bytes. -/
theorem decode_unit_eq_op {u : FnUnit} {word : List Byte} {i : Instr} (h : decode (.unit u word) = .op i) :
    ∃ v < 2 ^ operandBits u, word = natToBytes (operandBytes u) v ∧ decodeOperand u v = .op i := by
  change decodeUnit u word = .op i at h
  unfold decodeUnit at h
  split_ifs at h with hlength hwide
  refine ⟨bytesToNat word, by omega, ?_, h⟩
  have hlen : word.length = operandBytes u := not_not.mp hlength
  rw [← hlen, natToBytes_bytesToNat]

theorem encode_classifyRow (f : FrameWord) (c : FrameClass) :
    encode (classifyRow f c) = .unit .classify (natToBytes 25 f.toNat) := by
  cases c <;> rfl

theorem exists_bitVec_toNat_eq {n v : Nat} (hv : v < 2 ^ n) : ∃ w : BitVec n, w.toNat = v :=
  ⟨BitVec.ofNatLT v hv, BitVec.toNat_ofNatLT v hv⟩

/-- A unit reads every word of its width as an operation that is encoded as that word. -/
theorem exists_decodeOperand_eq_op (u : FnUnit) {v : Nat} (hv : v < 2 ^ operandBits u) :
    ∃ i, decodeOperand u v = .op i ∧ encode i = .unit u (natToBytes (operandBytes u) v) := by
  cases u with
  | classify =>
    obtain ⟨f, rfl⟩ := exists_bitVec_toNat_eq (n := 200) hv
    exact ⟨_, decodeOperand_classify f, encode_classifyRow f _⟩
  | chval =>
    obtain ⟨r, rfl⟩ := exists_bitVec_toNat_eq (n := 16) hv
    exact ⟨_, decodeOperand_chval r, rfl⟩
  | unpack =>
    obtain ⟨f, rfl⟩ := exists_bitVec_toNat_eq (n := 200) hv
    exact ⟨_, decodeOperand_unpack f, rfl⟩
  | axis =>
    obtain ⟨r, rfl⟩ := exists_bitVec_toNat_eq (n := 11) hv
    exact ⟨_, decodeOperand_axis r, rfl⟩
  | button =>
    obtain ⟨r, rfl⟩ := exists_bitVec_toNat_eq (n := 11) hv
    exact ⟨_, decodeOperand_button r, rfl⟩
  | threeway =>
    obtain ⟨r, rfl⟩ := exists_bitVec_toNat_eq (n := 11) hv
    exact ⟨_, decodeOperand_threeway r, rfl⟩
  | axeq =>
    obtain ⟨w, rfl⟩ := exists_bitVec_toNat_eq (n := 64) hv
    rw [toNat_eq_halves w]
    exact ⟨_, decodeOperand_axeq _ _, rfl⟩
  | ctrlmap =>
    obtain ⟨w, rfl⟩ := exists_bitVec_toNat_eq (n := 176) hv
    refine ⟨_, decodeOperand_ctrlmap w, ?_⟩
    rw [encode, wordOfChannels_channelsOfWord, operandBytes]

/-- Settles O3: a word that is taken is the bytes of a number of the unit's width, whose operation is encoded as it. -/
theorem encodeOfDecodedOperand : Obligations.EncodeOfDecodedOperand := by
  intro u word i h
  obtain ⟨v, hv, rfl, hi⟩ := decode_unit_eq_op h
  obtain ⟨j, hj, hencode⟩ := exists_decodeOperand_eq_op u hv
  obtain rfl := Decoded.op.inj (hj.symm.trans hi)
  exact hencode

/-- Settles O1: the operations are evaluated, one request at a time. -/
theorem sampleRequestsDecode : Obligations.SampleRequestsDecode := by
  unfold Obligations.SampleRequestsDecode
  decide

end Sys2Proof.Machine
end

section
/-! PROOFS. The two operations that move bytes (`spec/40_accumulator.md` rules R93, R96), as equations of `exec`: the
state INGEST leaves has a name, and TRY_DECODE leaves the state as it is or discarded. -/

namespace Sys2Proof.Machine

/-- The accumulator after an INGEST: as many of the offered bytes as fit are appended (R93). -/
def ingested (data : List Byte) (s : State) : State :=
  append s (acceptedOf s.fillCount data.length) (data.take (acceptedOf s.fillCount data.length).val)

theorem ingested_fillCount_val (data : List Byte) (s : State) :
    (ingested data s).fillCount.val = s.fillCount.val + min data.length (25 - s.fillCount.val) :=
  advance_acceptedOf s.fillCount data.length

theorem read_ingested (data : List Byte) (s : State) (a : Nat) :
    Memory.read (ingested data s).buf a =
      if s.fillCount.val ≤ a ∧ a < s.fillCount.val + min data.length (25 - s.fillCount.val) then
        data[a - s.fillCount.val]?
      else Memory.read s.buf a :=
  read_append s data a

theorem exec_ingest (data : List Byte) (s : State) :
    exec (.ingest data) s =
      .next { ingested data s with result := .accepted (acceptedOf s.fillCount data.length) } := execIngest_eq data s

theorem exec_tryDecode_notFull {s : State} (h : s.fillCount.val < 25) :
    exec .tryDecode s = .next { s with result := notReadyResult } := execTryDecode_notFull h

theorem exec_tryDecode_holds {s : State} {bs : List Byte} (h : s.Holds bs) (hl : bs.length = 25) :
    exec .tryDecode s =
      .next { discard s with result := windowResult s.config.ctrlKind (frameOfBytes bs) } := execTryDecode_holds h hl

end Sys2Proof.Machine
end

section
/-! PROOFS. What every step keeps (`spec/10_state.md` rules R21 to R25): the invariant, the requests, the parameters,
and which operations move `fill_count`. -/

namespace Sys2Proof.Machine

/-- The invariant speaks of `fill_count` and `buf` alone. -/
theorem State.Inv.congr {s t : State} (h : s.Inv) (hfill : t.fillCount = s.fillCount) (hbuf : t.buf = s.buf) :
    t.Inv := by
  rwa [State.Inv, hfill, hbuf]

theorem State.Inv.withInputs {s : State} (h : s.Inv) (rest : List Request) :
    State.Inv { s with inputs := rest } := h.congr rfl rfl

/-- An EMPTY accumulator without values meets the invariant. -/
theorem inv_of_empty {s : State} (hfill : s.fillCount = 0) (hbuf : s.buf = []) : s.Inv := by
  refine ⟨by rw [hbuf]; exact Memory.wf_nil, fun a => ?_⟩
  simp [hfill, hbuf]

theorem inv_discard (s : State) : (discard s).Inv := inv_of_empty (discard_fillCount s) (discard_buf s)

/-- INGEST stores the accepted bytes at the offsets it adds to `fill_count`, and no others. -/
theorem inv_ingested {s : State} (h : s.Inv) (data : List Byte) : (ingested data s).Inv := by
  obtain ⟨hwf, hvalid⟩ := h
  have hfill := s.fillCount.isLt
  refine ⟨Memory.wf_writeList _ hwf ?fits, fun a => ?_⟩
  case fits =>
    rw [List.length_take, acceptedOf_val, frameLen]
    omega
  rw [read_ingested, ingested_fillCount_val]
  by_cases hnew : s.fillCount.val ≤ a ∧ a < s.fillCount.val + min data.length (25 - s.fillCount.val)
  · have hstored : a - s.fillCount.val < data.length := by omega
    simp [hnew, hstored]
  · rw [if_neg hnew, hvalid]
    omega

theorem exec_keeps_inv {i : Instr} {s t : State} (hs : s.Inv) (h : exec i s = .next t) : t.Inv := by
  obtain ⟨-, rfl⟩ | ⟨data, -, rfl⟩ | ⟨-, -, rfl⟩ | ⟨-, -, bs, -, -, rfl⟩ | ⟨-, r, -, rfl⟩ := exec_next_cases h
  · exact (inv_discard s).congr rfl rfl
  · exact (inv_ingested hs data).congr rfl rfl
  · exact hs.congr rfl rfl
  · exact (inv_discard s).congr rfl rfl
  · exact hs.congr rfl rfl

theorem step_keeps_inv {s t : State} (hs : s.Inv) (h : step s = .next t) : t.Inv := by
  obtain rfl | ⟨r, rest, i, -, -, -, hexec⟩ := step_next_cases h
  · exact hs.congr rfl rfl
  · exact exec_keeps_inv (hs.withInputs rest) hexec

/-- Settles O24: each operation keeps the invariant, and `fill_count` is at most 25 by its type. -/
theorem stepKeepsInv : Obligations.StepKeepsInv := fun _ t hs h =>
  ⟨step_keeps_inv hs h, Nat.le_of_lt_succ t.fillCount.isLt⟩

/-- Settles O23: at reset the accumulator is EMPTY and holds no value. -/
theorem invHoldsAtReset : Obligations.InvHoldsAtReset := inv_of_empty reset_fillCount reset_buf

/-- Settles O7: the request is decoded, and a well-formed operation is carried out. -/
theorem stepRunsTheDecodedOperation : Obligations.StepRunsTheDecodedOperation := by
  intro s r rest i hs hr hwf
  rw [step_of_inputs hs, hr]
  exact runDecoded_of_wf (s := { s with inputs := rest }) hwf

/-- Settles O26: an idle step uses up the request, and an operation runs at the state without it. -/
theorem stepTakesOneRequest : Obligations.StepTakesOneRequest := by
  intro s t h
  obtain rfl | ⟨r, rest, i, hs, -, -, hexec⟩ := step_next_cases h
  · exact ⟨rfl, rfl⟩
  · obtain ⟨hinputs, hconfig⟩ := exec_sameOutside hexec
    exact ⟨by rw [hinputs, hs, List.tail_cons], hconfig⟩

/-- Settles O22: one case for each thing an operation can do to `fill_count`. -/
theorem onlyTheseChangeTheFillCount : Obligations.OnlyTheseChangeTheFillCount := by
  intro i s t h
  obtain ⟨hi, rfl⟩ | ⟨data, hi, ht⟩ | ⟨-, -, rfl⟩ | ⟨hi, hfull, bs, -, -, rfl⟩ | ⟨-, r, -, rfl⟩ := exec_next_cases h
  · exact ⟨fun _ => ⟨rfl, .inl hi⟩, fun hrise => absurd hrise (Nat.not_lt_zero _)⟩
  · have hcount : t.fillCount.val = s.fillCount.val + min data.length (25 - s.fillCount.val) := by
      rw [ht]
      exact ingested_fillCount_val data s
    exact ⟨fun hfall => absurd hfall (by omega), fun _ => ⟨data, hi, hcount⟩⟩
  · exact ⟨fun hfall => absurd hfall (lt_irrefl _), fun hrise => absurd hrise (lt_irrefl _)⟩
  · exact ⟨fun _ => ⟨rfl, .inr ⟨hi, hfull⟩⟩, fun hrise => absurd hrise (Nat.not_lt_zero _)⟩
  · exact ⟨fun hfall => absurd hfall (lt_irrefl _), fun hrise => absurd hrise (lt_irrefl _)⟩

end Sys2Proof.Machine
end

section
/-! PROOFS. Where a run can stop (`spec/60_exceptions.md` rule R162, `spec/30_encoding.md` rules R70, R71): the pure
operations always go on, TRY_DECODE goes on from a good state, and every other stop has its name. -/

namespace Sys2Proof.Machine

theorem f32Finite_iff (p : F32) : f32Finite p = true ↔ p.extractLsb' 23 8 ≠ 255#8 := by
  rw [f32Finite, f32Exp, bne_iff_ne, not_iff_not]
  exact (BitVec.toNat_inj (y := 255#8)).symm.symm

theorem exec_axeq {a b : F32} (ha : f32Finite a = true) (hb : f32Finite b = true) (s : State) :
    exec (.axeq a b) s = .next { s with result := .axisEqual (axeq a b) } := by
  change execAxeq a b s = _
  simp [execAxeq, ha, hb, answer]

theorem exec_axeq_of_not_finite {a b : F32} (h : ¬ (f32Finite a = true ∧ f32Finite b = true)) (s : State) :
    exec (.axeq a b) s = .refused .axeqNotFinite := by
  change execAxeq a b s = _
  rw [execAxeq, if_neg (by rwa [Bool.and_eq_true])]

/-- Settles O28: each pure operation answers with a value of its operands and the parameters. -/
theorem pureOperationsTouchNoState : Obligations.PureOperationsTouchNoState := by
  intro i s hpure hrun
  cases i with
  | reset => exact hpure.elim
  | ingest data => exact hpure.elim
  | tryDecode => exact hpure.elim
  | classifyValid f => exact ⟨_, fun t _ => rfl⟩
  | classifyBadFooter f => exact ⟨_, fun t _ => rfl⟩
  | classifyBadHeader f => exact ⟨_, fun t _ => rfl⟩
  | chval raw => exact ⟨_, fun t _ => rfl⟩
  | unpack f => exact ⟨_, fun t _ => rfl⟩
  | axis raw => exact ⟨_, fun t _ => rfl⟩
  | button raw => exact ⟨_, fun t _ => rfl⟩
  | threeway raw => exact ⟨_, fun t _ => rfl⟩
  | axeq a b =>
    obtain ⟨ha, hb⟩ := hrun
    exact ⟨_, fun t _ => exec_axeq ha hb t⟩
  | ctrlmap ch => exact ⟨.controls (ctrlmap s.config.ctrlKind ch), fun t hconfig => by rw [exec_ctrlmap, hconfig]⟩

/-- TRY_DECODE goes on from every good state. -/
theorem exists_exec_tryDecode_of_inv {s : State} (hs : s.Inv) : ∃ t, exec .tryDecode s = .next t := by
  by_cases hfull : s.fillCount.val < 25
  · exact ⟨_, exec_tryDecode_notFull hfull⟩
  · obtain ⟨bs, hb⟩ := hs.holds
    have hl : bs.length = 25 := by
      have hlt := s.fillCount.isLt
      have hcount := hb.1
      omega
    exact ⟨_, exec_tryDecode_holds hb hl⟩

/-- Every operation goes on from a good state, but for AXEQ on an operand that is not finite. -/
theorem exec_of_inv {s : State} (hs : s.Inv) (i : Instr) :
    (∃ t, exec i s = .next t) ∨ (¬ Runnable i ∧ exec i s = .refused .axeqNotFinite) := by
  by_cases hrun : Runnable i
  · left
    by_cases hpure : IsPure i
    · obtain ⟨r, hr⟩ := pureOperationsTouchNoState i s hpure hrun
      exact ⟨_, hr s rfl⟩
    · cases i with
      | reset => exact ⟨_, exec_reset_eq_next.mpr rfl⟩
      | ingest data => exact ⟨_, exec_ingest data s⟩
      | tryDecode => exact exists_exec_tryDecode_of_inv hs
      | _ => exact absurd trivial hpure
  · right
    cases i with
    | axeq a b => exact ⟨hrun, exec_axeq_of_not_finite hrun s⟩
    | _ => exact absurd trivial hrun

theorem runDecoded_ne_fault_of_inv {s : State} (hs : s.Inv) (d : Decoded) (e : Fault) :
    runDecoded d s ≠ .fault e := by
  cases d with
  | idle => simp [runDecoded, idleStep, answer]
  | rejected r => simp [runDecoded]
  | op i =>
    by_cases hwf : i.wf s.config = true
    · rw [runDecoded_of_wf hwf]
      obtain ⟨t, ht⟩ | ⟨-, hrefused⟩ := exec_of_inv hs i
      · simp [ht]
      · simp [hrefused]
    · simp [runDecoded, hwf]

/-- Settles O25: from a good state an operation goes on or is refused, and so does the step that runs it. -/
theorem goodStatesGoOn : Obligations.GoodStatesGoOn := by
  intro s hs
  refine ⟨fun e => ?fault, fun hnone => ?absent, fun r rest hr hproper => ?proper⟩
  case fault =>
    cases hinputs : s.inputs with
    | nil => simp [step, hinputs, idleStep, answer]
    | cons r rest =>
      rw [step_of_inputs hinputs]
      exact runDecoded_ne_fault_of_inv (hs.withInputs rest) _ e
  case absent => exact ⟨_, step_of_idle (by simp [hnone])⟩
  case proper =>
    obtain hidle | ⟨i, hi, hwf, hrun⟩ := hproper
    · exact ⟨_, step_of_idle (by simpa [hr] using hidle)⟩
    · rw [stepRunsTheDecodedOperation s r rest i hr hi hwf]
      obtain hnext | ⟨hnot, -⟩ := exec_of_inv (hs.withInputs rest) i
      · exact hnext
      · exact absurd hrun hnot

/-- Settles O8: each stop is the branch of the decoder or of the step that names it. -/
theorem stopsAreNamed : Obligations.StopsAreNamed := by
  refine ⟨fun s r rest e hs hr => ?rejected, fun u word hlen => if_pos hlen, fun u word hlen hwide => ?wide,
    fun n data hlt => if_neg (Nat.not_le.mpr hlt), fun _ => rfl,
    fun n m data rest s hs hn hmax hlt => ?overIngestMax, fun a b s h => ?notFinite⟩
  case rejected =>
    rw [step_of_inputs hs, hr]
    rfl
  case wide =>
    change decodeUnit u word = _
    rw [decodeUnit, if_neg (not_not.mpr hlen), if_pos hwide]
  case overIngestMax =>
    have hwf : (Instr.ingest (data.take n)).wf s.config = false := by
      simp [Instr.wf, withinIngestMax, hmax, hn, hlt]
    rw [step_of_inputs hs, decode_pins_ingest hn]
    simp [runDecoded, hwf]
  case notFinite =>
    refine exec_axeq_of_not_finite (fun ⟨ha, hb⟩ => ?_) s
    obtain hnot | hnot := h
    · exact (f32Finite_iff a).mp ha hnot
    · exact (f32Finite_iff b).mp hb hnot

end Sys2Proof.Machine
end

section
/-! PROOFS. What cannot be seen (`spec/10_state.md` rules R23, R27, R30): states that agree on everything but the stale
bytes and the last result step alike. -/

namespace Sys2Proof.Machine

theorem Agree.fillCount_eq {s s' : State} (h : Agree s s') : s'.fillCount = s.fillCount := h.1

theorem Agree.read_eq {s s' : State} (h : Agree s s') {a : Nat} (ha : a < s.fillCount.val) :
    Memory.read s'.buf a = Memory.read s.buf a := h.2.1 a ha

theorem Agree.inputs_eq {s s' : State} (h : Agree s s') : s'.inputs = s.inputs := h.2.2.1

theorem Agree.config_eq {s s' : State} (h : Agree s s') : s'.config = s.config := h.2.2.2

/-- Two steps that end alike: they go on to states that agree and hold the same result, or stop for the same reason. -/
inductive SameOutcome : Step → Step → Prop
  | next {t t' : State} (hagree : Agree t t') (hresult : t'.result = t.result) : SameOutcome (.next t) (.next t')
  | fault (e : Fault) : SameOutcome (.fault e) (.fault e)
  | refused (e : Refusal) : SameOutcome (.refused e) (.refused e)

theorem SameOutcome.elim {o o' : Step} (h : SameOutcome o o') :
    (∃ t t', o = .next t ∧ o' = .next t' ∧ Agree t t' ∧ t'.result = t.result) ∨
      (∃ e, o = .fault e ∧ o' = .fault e) ∨ ∃ e, o = .refused e ∧ o' = .refused e := by
  cases h with
  | next hagree hresult => exact .inl ⟨_, _, rfl, rfl, hagree, hresult⟩
  | fault e => exact .inr (.inl ⟨e, rfl, rfl⟩)
  | refused e => exact .inr (.inr ⟨e, rfl, rfl⟩)

theorem Agree.answer {s s' : State} (h : Agree s s') (r : Result) : SameOutcome (answer r s) (answer r s') :=
  .next h rfl

theorem Agree.withInputs {s s' : State} (h : Agree s s') (rest : List Request) :
    Agree { s with inputs := rest } { s' with inputs := rest } :=
  ⟨h.fillCount_eq, fun _ ha => h.read_eq ha, rfl, h.config_eq⟩

theorem Agree.discard {s s' : State} (h : Agree s s') : Agree (discard s) (discard s') :=
  ⟨rfl, fun _ _ => rfl, h.inputs_eq, h.config_eq⟩

/-- The bytes INGEST adds are those offered, and the bytes below them agree as before. -/
theorem Agree.ingested {s s' : State} (h : Agree s s') (data : List Byte) :
    Agree (ingested data s) (ingested data s') := by
  refine ⟨Fin.ext (by rw [ingested_fillCount_val, ingested_fillCount_val, h.fillCount_eq]), fun a ha => ?_,
    h.inputs_eq, h.config_eq⟩
  rw [ingested_fillCount_val] at ha
  rw [read_ingested, read_ingested, h.fillCount_eq]
  by_cases hnew : s.fillCount.val ≤ a
  · rw [if_pos ⟨hnew, ha⟩, if_pos ⟨hnew, ha⟩]
  · rw [if_neg (fun hc => hnew hc.1), if_neg (fun hc => hnew hc.1), h.read_eq (Nat.lt_of_not_le hnew)]

/-- A byte is looked at only below `fill_count`. -/
theorem Agree.readByte {s s' : State} (h : Agree s s') (a : Nat) : readByte s' a = readByte s a := by
  unfold Machine.readByte
  rw [h.fillCount_eq]
  by_cases ha : a < s.fillCount.val
  · rw [h.read_eq ha]
  · rw [if_neg ha, if_neg ha]

theorem Agree.readBytes {s s' : State} (h : Agree s s') (n a : Nat) : readBytes s' n a = readBytes s n a := by
  induction n generalizing a with
  | zero => rfl
  | succ n ih => simp only [Machine.readBytes, h.readByte, ih]

theorem Agree.readWindow {s s' : State} (h : Agree s s') : readWindow s' = readWindow s := by
  simp only [Machine.readWindow, h.readBytes]

theorem Agree.decodeWindow {s s' : State} (h : Agree s s') (f : FrameWord) :
    SameOutcome (decodeWindow f s) (decodeWindow f s') := by
  rw [decodeWindow_eq, decodeWindow_eq, h.config_eq]
  exact h.discard.answer _

theorem Agree.execTryDecode {s s' : State} (h : Agree s s') : SameOutcome (execTryDecode s) (execTryDecode s') := by
  unfold Machine.execTryDecode
  rw [h.fillCount_eq, h.readWindow]
  by_cases hfull : s.fillCount.val < frameLen
  · rw [if_pos hfull, if_pos hfull]
    exact h.answer _
  · rw [if_neg hfull, if_neg hfull]
    cases Machine.readWindow s with
    | error e => exact .fault e
    | ok f => exact h.decodeWindow f

theorem Agree.exec {s s' : State} (h : Agree s s') (i : Instr) : SameOutcome (exec i s) (exec i s') := by
  cases i with
  | reset => exact h.discard.answer _
  | ingest data =>
    rw [exec_ingest, exec_ingest]
    exact .next (h.ingested data) (by rw [h.fillCount_eq])
  | tryDecode => exact h.execTryDecode
  | classifyValid f => exact h.answer _
  | classifyBadFooter f => exact h.answer _
  | classifyBadHeader f => exact h.answer _
  | chval raw => exact h.answer _
  | unpack f => exact h.answer _
  | axis raw => exact h.answer _
  | button raw => exact h.answer _
  | threeway raw => exact h.answer _
  | axeq a b =>
    by_cases hfinite : f32Finite a = true ∧ f32Finite b = true
    · rw [exec_axeq hfinite.1 hfinite.2, exec_axeq hfinite.1 hfinite.2]
      exact h.answer _
    · rw [exec_axeq_of_not_finite hfinite, exec_axeq_of_not_finite hfinite]
      exact .refused _
  | ctrlmap ch =>
    rw [exec_ctrlmap, exec_ctrlmap]
    exact .next h (by rw [h.config_eq])

theorem Agree.runDecoded {s s' : State} (h : Agree s s') (d : Decoded) :
    SameOutcome (runDecoded d s) (runDecoded d s') := by
  cases d with
  | idle => exact h.answer _
  | rejected e => exact .refused _
  | op i =>
    simp only [Machine.runDecoded, h.config_eq]
    by_cases hwf : i.wf s.config = true
    · rw [if_pos hwf, if_pos hwf]
      exact h.exec i
    · rw [if_neg hwf, if_neg hwf]
      exact .refused _

theorem Agree.step {s s' : State} (h : Agree s s') : SameOutcome (step s) (step s') := by
  unfold Machine.step
  rw [h.inputs_eq]
  cases s.inputs with
  | nil => exact h.answer _
  | cons r rest => exact (h.withInputs rest).runDecoded _

theorem core_run_fault {s : State} {e : Fault} (h : step s = .fault e) (k : Nat) :
    Sys2Proof.core.run (k + 1) s = .fault e := by
  have hstep : Sys2Proof.core.step s = .fault e := h
  simp only [Host.Core.run, hstep]

theorem core_run_refused {s : State} {e : Refusal} (h : step s = .refused e) (k : Nat) :
    Sys2Proof.core.run (k + 1) s = .refused e := by
  have hstep : Sys2Proof.core.step s = .refused e := h
  simp only [Host.Core.run, hstep]

/-- Runs whose first steps stop, stop alike; the others are the remaining runs from states that agree. -/
theorem Agree.run_of_later {s s' : State} (h : Agree s s') {k : Nat}
    (hlater : ∀ {t t' : State}, Agree t t' → t'.result = t.result →
      SameOutcome (Sys2Proof.core.run k t) (Sys2Proof.core.run k t')) :
    SameOutcome (Sys2Proof.core.run (k + 1) s) (Sys2Proof.core.run (k + 1) s') := by
  obtain ⟨t, t', ht, ht', hagree, hresult⟩ | ⟨e, he, he'⟩ | ⟨e, he, he'⟩ := h.step.elim
  · rw [core_run_succ ht, core_run_succ ht']
    exact hlater hagree hresult
  · rw [core_run_fault he, core_run_fault he']
    exact .fault e
  · rw [core_run_refused he, core_run_refused he']
    exact .refused e

/-- Runs of at least one step from states that agree end alike. -/
theorem Agree.run_succ {s s' : State} (h : Agree s s') (k : Nat) :
    SameOutcome (Sys2Proof.core.run (k + 1) s) (Sys2Proof.core.run (k + 1) s') := by
  induction k generalizing s s' with
  | zero => exact h.run_of_later fun hagree hresult => .next hagree hresult
  | succ k ih => exact h.run_of_later fun hagree _ => ih hagree

/-- Settles O27: no step is agreement itself, and one or more are `Agree.run_succ`. -/
theorem staleBytesAndOldResultsAreNeverSeen : Obligations.StaleBytesAndOldResultsAreNeverSeen := by
  intro k s s' h
  cases k with
  | zero => exact ⟨h, fun hk => absurd hk (lt_irrefl 0)⟩
  | succ k =>
    obtain ⟨t, t', ht, ht', hagree, hresult⟩ | ⟨e, he, he'⟩ | ⟨e, he, he'⟩ := (h.run_succ k).elim
    · rw [ht, ht']
      exact ⟨hagree, fun _ => hresult⟩
    · rw [he, he']
    · rw [he, he']

end Sys2Proof.Machine
end

section
/-! PROOFS. UNPACK and PACK (`spec/41_unpacker.md` rules R112 to R119): the byte formulas of GROUP are fields of the
88-bit number of the group's bytes, so a channel is a field of the frame word. -/

namespace Sys2Proof.Machine

/-- The top `k` bits of a byte are a number below `2 ^ k`. -/
theorem shiftRight_lt {lo k : Nat} (hk : k ≤ 8) (hlo : lo < 256) : lo >>> (8 - k) < 2 ^ k := by
  rw [Nat.shiftRight_eq_div_pow, Nat.div_lt_iff_lt_mul (Nat.two_pow_pos _), ← Nat.pow_add, Nat.add_sub_cancel' hk]
  exact hlo

/-- A channel over two bytes: the top `k` bits of the lower one, below the higher one. -/
theorem chval_twoBytes {lo : Nat} (hi k : Nat) (hk : k ≤ 8) (hlo : lo < 256) :
    (chval ((hi <<< k) ||| (lo >>> (8 - k)))).toNat = (hi * 2 ^ k + lo / 2 ^ (8 - k)) % 2048 := by
  rw [chval_toNat, shiftLeft_or hi (shiftRight_lt hk hlo), Nat.shiftRight_eq_div_pow]

/-- A channel over three bytes: the top `k` bits of the lowest one, below the middle one, below the highest. -/
theorem chval_threeBytes {lo mid : Nat} (hi k : Nat) (hk : k ≤ 8) (hlo : lo < 256) (hmid : mid < 256) :
    (chval ((hi <<< (8 + k)) ||| (mid <<< k) ||| (lo >>> (8 - k)))).toNat =
      ((hi * 2 ^ 8 + mid) * 2 ^ k + lo / 2 ^ (8 - k)) % 2048 := by
  rw [Nat.shiftLeft_add, ← Nat.shiftLeft_or_distrib, chval_twoBytes _ k hk hlo, shiftLeft_or hi (k := 8) hmid]

/-- Settles O30: every formula of GROUP is that of a channel over two or three bytes, and has the eleven bits of `S`
from `11 * i` on. -/
theorem groupFormulasAreTheBitStream : Obligations.GroupFormulasAreTheBitStream := by
  intro b S hS i hi
  have hbyte : ∀ (k : Nat) (h : k < 11), b[k].toNat < 256 := fun k _ => b[k].isLt
  simp only [Nat.shiftLeft_eq] at hS
  interval_cases i
  · refine (chval_twoBytes _ 8 (by decide) (hbyte 0 _)).trans ?_
    omega
  · refine (chval_twoBytes _ 5 (by decide) (hbyte 1 _)).trans ?_
    omega
  · refine (chval_threeBytes _ 2 (by decide) (hbyte 2 _) (hbyte 3 _)).trans ?_
    omega
  · refine (chval_twoBytes _ 7 (by decide) (hbyte 4 _)).trans ?_
    omega
  · refine (chval_twoBytes _ 4 (by decide) (hbyte 5 _)).trans ?_
    omega
  · refine (chval_threeBytes _ 1 (by decide) (hbyte 6 _) (hbyte 7 _)).trans ?_
    omega
  · refine (chval_twoBytes _ 6 (by decide) (hbyte 8 _)).trans ?_
    omega
  · refine (chval_twoBytes _ 3 (by decide) (hbyte 9 _)).trans ?_
    omega

/-- Bits above a field do not matter to it. -/
theorem mod_div_mod_two_pow (v : Nat) {lo len n : Nat} (h : lo + len ≤ n) :
    v % 2 ^ n / 2 ^ lo % 2 ^ len = v / 2 ^ lo % 2 ^ len := by
  rw [← Nat.mod_mul_right_div_self, ← Nat.mod_mul_right_div_self, ← Nat.pow_add,
    Nat.mod_mod_of_dvd v (Nat.pow_dvd_pow 2 h)]

/-- The channels of a group whose bytes are those of `v` are the eleven-bit fields of `v`. -/
theorem groupAt_toNat_of_bytes {f : FrameWord} {base v : Nat}
    (hbytes : ∀ k < 11, (frameByte f (base + k)).toNat = v / 2 ^ (8 * k) % 256) {i : Nat} (hi : i < 8) :
    (groupAt f base)[i].toNat = v / 2 ^ (11 * i) % 2 ^ 11 := by
  have hb0 : (frameByte f base).toNat = v % 256 := by simpa using hbytes 0 (by decide)
  have hstream := groupFormulasAreTheBitStream (Vector.ofFn fun k => frameByte f (base + k)) (v % 2 ^ 88) ?_ i hi
  · rw [mod_div_mod_two_pow v (by omega)] at hstream
    simpa [groupAt] using hstream
  · simpa (disch := decide) [Nat.shiftLeft_eq, hb0, hbytes] using eleven_bytes v

/-- Channel `i` of the group at `base` is the field of the frame word `11 * i` bits above that byte. -/
theorem groupAt_getElem (f : FrameWord) (base : Nat) {i : Nat} (hi : i < 8) :
    (groupAt f base)[i] = f.extractLsb' (8 * base + 11 * i) 11 := by
  have hbytes : ∀ k < 11, (frameByte f (base + k)).toNat = f.toNat / 2 ^ (8 * base) / 2 ^ (8 * k) % 256 := by
    intro k _
    rw [frameByte_toNat, Nat.mul_add, Nat.pow_add, Nat.div_div_eq_div_mul]
  apply BitVec.eq_of_toNat_eq
  rw [groupAt_toNat_of_bytes hbytes hi, BitVec.extractLsb'_toNat, Nat.shiftRight_eq_div_pow, Nat.pow_add,
    Nat.div_div_eq_div_mul]

/-- The first eight channels of UNPACK are group A. -/
theorem unpack_ch_getElem_groupA (f : FrameWord) {j : Nat} (hj : j < 8) :
    (unpack f).ch[j] = (groupAt f groupAPos)[j] := by
  exact Vector.getElem_append_left hj

/-- The last eight channels of UNPACK are group B. -/
theorem unpack_ch_getElem_groupB (f : FrameWord) {j : Nat} (hj : j < 8) :
    (unpack f).ch[8 + j] = (groupAt f groupBPos)[j] := by
  refine (Vector.getElem_append_right (by omega) (Nat.le_add_right 8 j)).trans ?_
  simp only [Nat.add_sub_cancel_left]

theorem exec_unpack (f : FrameWord) (s : State) :
    exec (.unpack f) s = .next { s with result := .unpacked (unpack f) } := rfl

/-- Settles O31: the two groups start at bits 8 and 96 of the frame word, and the flags are `unpack_flags`. -/
theorem unpackReadsTheFields : Obligations.UnpackReadsTheFields := by
  refine fun f s => ⟨unpack f, exec_unpack f s, fun j hj => ?_, unpack_flags f⟩
  by_cases hA : j < 8
  · rw [if_pos hA, unpack_ch_getElem_groupA f hA, groupAt_getElem f _ hA, groupAPos]
  · obtain ⟨i, rfl⟩ := Nat.exists_eq_add_of_le (Nat.not_lt.mp hA)
    have hi : i < 8 := by omega
    rw [if_neg hA, unpack_ch_getElem_groupB f hi, groupAt_getElem f _ hi, groupBPos, Nat.add_sub_cancel_left]

/-- Two groups have the same channels exactly when they have the same bytes. -/
theorem groupAt_eq_iff (f g : FrameWord) (base : Nat) :
    groupAt f base = groupAt g base ↔ ∀ i < 11, frameByte f (base + i) = frameByte g (base + i) := by
  refine ⟨fun h i hi => frameByte_congr fun k hk => ?_, groupAt_congr⟩
  have hfield : 8 * (base + i) + k = 8 * base + 11 * ((8 * i + k) / 11) + (8 * i + k) % 11 := by omega
  have hchannel : (8 * i + k) / 11 < 8 := by omega
  have hbit : (8 * i + k) % 11 < 11 := Nat.mod_lt _ (by decide)
  have hsame := congrArg (fun chs : Vector Channel 8 => chs[(8 * i + k) / 11].getLsbD ((8 * i + k) % 11)) h
  simpa [groupAt_getElem, hbit, ← hfield] using hsame

/-- Eleven bytes from `base` on, by their own numbers. -/
theorem forall_bytes_iff (f g : FrameWord) (base : Nat) :
    (∀ i < 11, frameByte f (base + i) = frameByte g (base + i)) ↔
      ∀ n, base ≤ n → n ≤ base + 10 → frameByte f n = frameByte g n := by
  refine ⟨fun h n hlo hhi => ?_, fun h i hi => h _ (by omega) (by omega)⟩
  obtain ⟨i, rfl⟩ := Nat.exists_eq_add_of_le hlo
  exact h i (by omega)

/-- Frames have the same first eight channels exactly when they have the same bytes 1 to 11. -/
theorem groupA_eq_iff (f g : FrameWord) :
    (∀ (j : Nat) (_ : j < 8), (unpack f).ch[j] = (unpack g).ch[j]) ↔
      ∀ n : Nat, 1 ≤ n → n ≤ 11 → frameByte f n = frameByte g n := by
  rw [← forall_bytes_iff f g 1, ← groupAt_eq_iff]
  refine ⟨fun h => Vector.ext fun j hj => ?_, fun h j hj => ?_⟩
  · simpa only [unpack_ch_getElem_groupA _ hj] using h j hj
  · rw [unpack_ch_getElem_groupA f hj, unpack_ch_getElem_groupA g hj, groupAPos, h]

/-- Frames have the same last eight channels exactly when they have the same bytes 12 to 22. -/
theorem groupB_eq_iff (f g : FrameWord) :
    (∀ (j : Nat) (_ : j < 16), 8 ≤ j → (unpack f).ch[j] = (unpack g).ch[j]) ↔
      ∀ n : Nat, 12 ≤ n → n ≤ 22 → frameByte f n = frameByte g n := by
  rw [← forall_bytes_iff f g 12, ← groupAt_eq_iff]
  refine ⟨fun h => Vector.ext fun j hj => ?_, fun h j hj hlo => ?_⟩
  · simpa only [unpack_ch_getElem_groupB _ hj] using h (8 + j) (by omega) (by omega)
  · obtain ⟨i, rfl⟩ := Nat.exists_eq_add_of_le hlo
    have hi : i < 8 := by omega
    rw [unpack_ch_getElem_groupB f hi, unpack_ch_getElem_groupB g hi, groupBPos, h]

/-- All sixteen channels are the first eight and the last eight. -/
theorem unpack_ch_eq_iff (f g : FrameWord) :
    (unpack f).ch = (unpack g).ch ↔ ∀ n : Nat, 1 ≤ n → n ≤ 22 → frameByte f n = frameByte g n := by
  refine ⟨fun h n hlo hhi => ?_, unpack_ch_congr⟩
  by_cases hA : n ≤ 11
  · exact (groupA_eq_iff f g).mp (fun j _ => by rw [h]) n hlo hA
  · exact (groupB_eq_iff f g).mp (fun j _ _ => by rw [h]) n (by omega) hhi

/-- Settles O33: each group by `groupAt_eq_iff`, and each flag is its own bit by `unpack_flags`. -/
theorem channelsDetermineThePayload : Obligations.ChannelsDetermineThePayload := by
  intro f g
  obtain ⟨f17, f18, flost, fsafe⟩ := unpack_flags f
  obtain ⟨g17, g18, glost, gsafe⟩ := unpack_flags g
  refine ⟨unpack_ch_eq_iff f g, groupA_eq_iff f g, groupB_eq_iff f g, ?_, ?_, ?_, ?_⟩
  · rw [f17, g17]
  · rw [f18, g18]
  · rw [flost, glost]
  · rw [fsafe, gsafe]

/-- The bytes of a packed frame, byte 0 first. -/
def packBytes (ch : Channels) (fl : Byte) : List Byte :=
  header :: (natToBytes groupBytes (groupStream (ch.toList.take 8)) ++
    natToBytes groupBytes (groupStream (ch.toList.drop 8)) ++ [fl, footer])

theorem frameByte_pack (ch : Channels) (fl : Byte) (i : Nat) :
    frameByte (pack ch fl) i = (packBytes ch fl).getD i 0#8 :=
  frameByte_frameOfBytes (by simp [groupBytes]) i

theorem frameByte_pack_header (ch : Channels) (fl : Byte) : frameByte (pack ch fl) 0 = 0x0F#8 :=
  frameByte_pack ch fl 0

theorem frameByte_pack_flags (ch : Channels) (fl : Byte) : frameByte (pack ch fl) 23 = fl :=
  frameByte_pack ch fl 23

theorem frameByte_pack_footer (ch : Channels) (fl : Byte) : frameByte (pack ch fl) 24 = 0x00#8 :=
  frameByte_pack ch fl 24

/-- Group A of a packed frame holds the stream of the first eight channels. -/
theorem frameByte_pack_groupA (ch : Channels) (fl : Byte) {k : Nat} (hk : k < 11) :
    (frameByte (pack ch fl) (groupAPos + k)).toNat = groupStream (ch.toList.take 8) / 2 ^ (8 * k) % 256 := by
  rw [frameByte_pack, packBytes, groupAPos, Nat.add_comm, List.getD_cons_succ, List.append_assoc,
    List.getD_append _ _ _ _ (by simpa using hk), natToBytes_getD, if_pos hk, BitVec.toNat_ofNat]

/-- Group B of a packed frame holds the stream of the last eight channels. -/
theorem frameByte_pack_groupB (ch : Channels) (fl : Byte) {k : Nat} (hk : k < 11) :
    (frameByte (pack ch fl) (groupBPos + k)).toNat = groupStream (ch.toList.drop 8) / 2 ^ (8 * k) % 256 := by
  have hshift : groupBPos + k = 11 + k + 1 := Nat.add_right_comm 11 1 k
  rw [frameByte_pack, packBytes, hshift, List.getD_cons_succ, List.append_assoc,
    List.getD_append_right _ _ _ _ (by simp), natToBytes_length, Nat.add_sub_cancel_left,
    List.getD_append _ _ _ _ (by simpa using hk), natToBytes_getD, if_pos hk, BitVec.toNat_ofNat]

theorem unpack_pack_ch (ch : Channels) (fl : Byte) : (unpack (pack ch fl)).ch = ch := by
  refine Vector.ext fun j hj => BitVec.eq_of_toNat_eq ?_
  by_cases hA : j < 8
  · rw [unpack_ch_getElem_groupA _ hA, groupAt_toNat_of_bytes (fun k => frameByte_pack_groupA ch fl) hA]
    refine (channelsToNat_div _ j).trans ?_
    simp [List.getD_eq_getElem?_getD, hA]
  · obtain ⟨i, rfl⟩ := Nat.exists_eq_add_of_le (Nat.not_lt.mp hA)
    have hi : i < 8 := by omega
    rw [unpack_ch_getElem_groupB _ hi, groupAt_toNat_of_bytes (fun k => frameByte_pack_groupB ch fl) hi]
    refine (channelsToNat_div _ i).trans ?_
    simp [List.getD_eq_getElem?_getD, hj]

/-- Settles O34: a packed frame has its header, flag byte and footer in their places, and the streams of the channels in
the two groups, whose fields UNPACK reads. -/
theorem unpackOfPack : Obligations.UnpackOfPack := by
  intro ch fl
  obtain ⟨-, -, valid⟩ := classify_cases (pack ch fl)
  obtain ⟨h17, h18, hlost, hsafe⟩ := flag_bits fl
  have hheader := frameByte_pack_header ch fl
  have hflags := frameByte_pack_flags ch fl
  have hfooter := frameByte_pack_footer ch fl
  refine ⟨valid.mpr ⟨hheader, hfooter⟩, unpack_pack_ch ch fl, ?_, ?_, ?_, ?_, hheader, hflags, hfooter⟩
  · rw [unpack, flagPos, hflags, h17]
  · rw [unpack, flagPos, hflags, h18]
  · rw [unpack, flagPos, hflags, hlost]
  · rw [unpack, flagPos, hflags, hsafe]

end Sys2Proof.Machine
end

section
/-! PROOFS. The corner cases of INGEST (`spec/40_accumulator.md` rule R94): what no bytes, a full buffer and enough
bytes do, and two INGESTs as one. -/

namespace Sys2Proof.Machine

/-- When nothing is offered or nothing fits, INGEST accepts nothing and changes nothing. -/
theorem exec_ingest_accepts_none {data : List Byte} {s : State} (h : data.length = 0 ∨ s.fillCount.val = 25) :
    exec (.ingest data) s = .next { s with result := .accepted 0 } := by
  rw [exec_ingest, ingested, acceptedOf_eq_zero h, append_zero]

/-- A list stored in two parts, the second where the first ends. -/
theorem Memory.writeList_append (bs cs : List Byte) (m : Memory) (a : Nat) :
    Memory.writeList m a (bs ++ cs) = Memory.writeList (Memory.writeList m a bs) (a + bs.length) cs := by
  induction bs generalizing m a with
  | nil => rfl
  | cons b bs ih =>
    rw [List.cons_append, Memory.writeList, ih, Memory.writeList, List.length_cons, Nat.add_assoc, Nat.add_comm 1]

/-- Of two lists offered one after the other as many bytes fit as of the joined list. -/
theorem acceptedOf_add_acceptedOf (s : State) (xs ys : List Byte) :
    (acceptedOf s.fillCount xs.length).val + (acceptedOf (ingested xs s).fillCount ys.length).val =
      (acceptedOf s.fillCount (xs ++ ys).length).val := by
  rw [acceptedOf_val, acceptedOf_val, acceptedOf_val, ingested_fillCount_val, List.length_append]
  omega

/-- The bytes accepted of the joined list are those accepted of the first and then those accepted of the second. -/
theorem take_acceptedOf_append (s : State) (xs ys : List Byte) :
    (xs ++ ys).take (acceptedOf s.fillCount (xs ++ ys).length).val =
      xs.take (acceptedOf s.fillCount xs.length).val ++
        ys.take (acceptedOf (ingested xs s).fillCount ys.length).val := by
  have hsum := acceptedOf_add_acceptedOf s xs ys
  simp only [acceptedOf_val, ingested_fillCount_val] at hsum ⊢
  rw [List.take_append]
  congr 1
  · rw [List.take_eq_take_iff]
    omega
  · congr 1
    omega

/-- Two INGESTs leave the accumulator as one INGEST of the lists joined does. -/
theorem ingested_ingested (s : State) (xs ys : List Byte) :
    ingested ys (ingested xs s) = ingested (xs ++ ys) s := by
  have hfill : (ingested ys (ingested xs s)).fillCount = (ingested (xs ++ ys) s).fillCount := by
    apply Fin.ext
    rw [ingested_fillCount_val, ingested_fillCount_val, ingested_fillCount_val, List.length_append]
    omega
  have hend : (ingested xs s).fillCount.val =
      s.fillCount.val + (xs.take (acceptedOf s.fillCount xs.length).val).length := by
    rw [ingested_fillCount_val, List.length_take, acceptedOf_val]
    omega
  have hbuf : (ingested ys (ingested xs s)).buf = (ingested (xs ++ ys) s).buf := by
    change Memory.writeList (Memory.writeList s.buf _ _) _ _ = Memory.writeList s.buf _ _
    rw [take_acceptedOf_append, Memory.writeList_append, ← hend]
  rw [State.mk.injEq]
  exact ⟨hfill, hbuf, rfl, rfl, rfl⟩

/-- Settles O13: (a) and (b) accept nothing; (c) to (f) are the count and the bytes of `ingested`; (g) is
`ingested_ingested`. -/
theorem ingestCornerCases : Obligations.IngestCornerCases := by
  refine ⟨fun s => exec_ingest_accepts_none (.inl rfl), fun data s hfull => exec_ingest_accepts_none (.inr hfull),
    fun data s henough => ?fills, fun data s t h => ?kept, fun xs ys s => ?joined⟩
  case fills =>
    have hcount := ingested_fillCount_val data s
    have hfill := s.fillCount.isLt
    refine ⟨_, exec_ingest data s, hcount.trans (by omega), ⟨_, rfl, by rw [acceptedOf_val]; omega⟩,
      fun a hlo hhi => ?_⟩
    rw [read_ingested, if_pos (by omega)]
  case kept =>
    have hcount := ingested_fillCount_val data s
    cases (exec_ingest data s).symm.trans h
    refine ⟨(Nat.le_add_right _ _).trans hcount.ge, fun a ha => ?_⟩
    rw [read_ingested, if_neg (by omega)]
  case joined =>
    refine ⟨_, _, _, _, _, _, exec_ingest xs s, exec_ingest ys _, exec_ingest (xs ++ ys) s, rfl, rfl, rfl,
      acceptedOf_add_acceptedOf s xs ys, ?_⟩
    rw [← ingested_ingested]
    rfl

end Sys2Proof.Machine
end

section
/-! PROOFS. The record of TRY_DECODE (`spec/30_encoding.md` rule R72, `spec/10_state.md` rules R26, R28) and its corner
cases (`spec/40_accumulator.md` rule R97). -/

namespace Sys2Proof.Machine

/-- The parts of a TRY_DECODE record that go together (R28, R72). -/
def DecodeResult.Tied (r : DecodeResult) : Prop :=
  (r.err ≠ .none ↔ r.res = .invalid) ∧ (r.frame.isSome = true ↔ r.res = .frame) ∧
    (r.ctrl.isSome = true ↔ r.res = .frame)

theorem tied_of_notReady {r : DecodeResult} (h : notReadyResult = .decoded r) : r.Tied := by
  cases h
  simp [DecodeResult.Tied]

theorem tied_of_invalid {kind : Err} (hkind : kind ≠ .none) {r : DecodeResult} (h : invalidResult kind = .decoded r) :
    r.Tied := by
  cases h
  simp [DecodeResult.Tied, hkind]

theorem tied_of_frame {kind : CtrlKind} {f : FrameWord} {r : DecodeResult} (h : frameResult kind f = .decoded r) :
    r.Tied := by
  cases h
  simp [DecodeResult.Tied]

theorem tied_of_window {kind : CtrlKind} {f : FrameWord} {r : DecodeResult} (h : windowResult kind f = .decoded r) :
    r.Tied := by
  rw [windowResult_eq] at h
  cases hclass : classify f <;> rw [hclass] at h
  case valid => exact tied_of_frame h
  case badFooter => exact tied_of_invalid (by decide) h
  case badHeader => exact tied_of_invalid (by decide) h

/-- Every record an operation returns is tied. -/
theorem exec_tied {i : Instr} {s t : State} {r : DecodeResult} (h : exec i s = .next t) (hr : t.result = .decoded r) :
    r.Tied := by
  obtain ⟨-, rfl⟩ | ⟨data, -, rfl⟩ | ⟨-, -, rfl⟩ | ⟨-, -, bs, -, -, rfl⟩ | ⟨-, r', hpure, rfl⟩ := exec_next_cases h
  · cases hr
  · cases hr
  · exact tied_of_notReady hr
  · exact tied_of_window hr
  · exact absurd hr (hpure r)

theorem countCode_toNat (k : FillCount) : (countCode k).toNat = k.val := by
  have hk := k.isLt
  rw [countCode, BitVec.toNat_ofNat, Nat.mod_eq_of_lt (by omega)]

/-- Settles O17: a step's record is that of an operation, and the codes are those of their tables. -/
theorem resultWordsAreTied : Obligations.ResultWordsAreTied := by
  refine ⟨fun s t r h hr => ?tied, fun r => ?_, fun e => ?_, rfl, rfl, rfl, rfl, rfl, rfl, rfl, rfl, fun w => ?_,
    fun k => ⟨countCode_toNat k, Nat.le_of_lt_succ k.isLt⟩, fun _ => rfl⟩
  case tied =>
    obtain rfl | ⟨_, _, i, -, -, -, hexec⟩ := step_next_cases h
    · cases hr
    · exact exec_tied hexec hr
  · cases r <;> decide
  · cases e <;> decide
  · cases w <;> decide

/-- TRY_DECODEs on a buffer that is not full, however many, find it not ready and change nothing. -/
theorem runOps_replicate_tryDecode (k : Nat) {s : State} (hs : s.fillCount.val < 25) :
    ∃ t : State, runOps (List.replicate k .tryDecode) s = .next (t, List.replicate k notReadyResult) ∧
      t.fillCount = s.fillCount ∧ t.buf = s.buf ∧ SameOutside s t := by
  induction k generalizing s with
  | zero => exact ⟨s, rfl, rfl, rfl, rfl, rfl⟩
  | succ k ih =>
    obtain ⟨t, hrun, hrest⟩ := ih (s := { s with result := notReadyResult }) hs
    exact ⟨t, runOps_cons (exec_tryDecode_notFull hs) hrun, hrest⟩

/-- The state a TRY_DECODE leaves behind a full buffer is EMPTY. -/
theorem exec_tryDecode_full_empties {s t : State} (h : exec .tryDecode s = .next t) (hfull : s.fillCount.val = 25) :
    t = { discard s with result := t.result } := by
  obtain ⟨f, -, rfl⟩ := exec_tryDecode_full h hfull
  rfl

/-- A full buffer with a right header and footer decodes to its frame. -/
theorem exec_tryDecode_valid {s : State} {b : List Byte} (hl : b.length = 25) (hb : s.Holds b)
    (h0 : b[0]? = some 0x0F#8) (h24 : b[24]? = some 0x00#8) :
    exec .tryDecode s = .next { discard s with result := frameResult s.config.ctrlKind (frameOfBytes b) } := by
  rw [exec_tryDecode_holds hb hl, windowResult_of_valid _ ((frameByte_frameOfBytes_eq_iff hl (by decide)).mpr h0)
    ((frameByte_frameOfBytes_eq_iff hl (by decide)).mpr h24)]

/-- The channels of a window do not depend on its flag byte. -/
theorem unpack_ch_set_flags {b : List Byte} (hl : b.length = 25) (fl : Byte) :
    (unpack (frameOfBytes (b.set 23 fl))).ch = (unpack (frameOfBytes b)).ch := by
  refine unpack_ch_congr fun n _ hn => ?_
  rw [frameByte_frameOfBytes (by simpa using hl), frameByte_frameOfBytes hl, List.getD_eq_getElem?_getD,
    List.getD_eq_getElem?_getD, List.getElem?_set_ne (by omega)]

/-- The flags of a window whose flag byte is `fl` are the low bits of `fl`. -/
theorem unpack_flags_set {b : List Byte} (hl : b.length = 25) (fl : Byte) :
    let d := unpack (frameOfBytes (b.set 23 fl))
    [d.ch17, d.ch18, d.frameLost, d.failsafe] = [fl.getLsbD 0, fl.getLsbD 1, fl.getLsbD 2, fl.getLsbD 3] := by
  have hbyte : frameByte (frameOfBytes (b.set 23 fl)) flagPos = fl :=
    (frameByte_frameOfBytes_eq_iff (by simpa using hl) (by decide)).mpr (List.getElem?_set_self (by omega))
  obtain ⟨h17, h18, hlost, hsafe⟩ := flag_bits fl
  simp only [unpack, hbyte, h17, h18, hlost, hsafe]

/-- Settles O15: (a) by induction, (b), (d) and (e) from the EMPTY state a full buffer leaves, (c) because the flag byte
is none of the bytes that the class and the channels are read from, and (f) by `exec_tied`. -/
theorem tryDecodeCornerCases : Obligations.TryDecodeCornerCases := by
  refine ⟨fun k s hs => runOps_replicate_tryDecode k hs, fun s t hfull h => ?again,
    fun s t b fl hl hb h0 h24 ht hconfig => ?flags, fun s t u hfull ht hu => ?reset, fun s t r h hr => ?error⟩
  case again =>
    rw [exec_tryDecode_full_empties h hfull]
    exact exec_tryDecode_notFull (show 0 < 25 by decide)
  case flags =>
    have hl' : (b.set 23 fl).length = 25 := by simpa using hl
    have h0' : (b.set 23 fl)[0]? = some 0x0F#8 := by rwa [List.getElem?_set_ne (by decide)]
    have h24' : (b.set 23 fl)[24]? = some 0x00#8 := by rwa [List.getElem?_set_ne (by decide)]
    refine ⟨_, _, _, _, _, exec_tryDecode_valid hl hb h0 h24, exec_tryDecode_valid hl' ht h0' h24', rfl, rfl, rfl, rfl,
      rfl, ?_, ?_⟩
    · rw [unpack_ch_set_flags hl, hconfig]
    · exact congrArg some (unpack_flags_set hl fl)
  case reset =>
    obtain rfl := exec_reset_eq_next.mp hu
    have hempties := exec_tryDecode_full_empties ht hfull
    exact hempties
  case error =>
    obtain ⟨herr, -, -⟩ := exec_tied h hr
    exact ⟨herr, fun hinvalid => (tryDecode_full_of_err h hr (herr.mpr hinvalid)).2⟩

end Sys2Proof.Machine
end

section
/-! PROOFS. Windows out of step with the frames (`spec/70_reset_and_hazards.md` rule R186): the window `n` bytes into a
frame begins with that frame's byte `n` and ends with the next frame's byte `n - 1`. -/

namespace Sys2Proof.Machine

/-- The window that starts at byte `n` of `f`, of `f` and `g` in a row. -/
def windowAt (f g : FrameWord) (n : Nat) : FrameWord := frameOfBytes ((frameBytes f).drop n ++ (frameBytes g).take n)

theorem windowAt_length (f g : FrameWord) {n : Nat} (hn : n ≤ 25) :
    ((frameBytes f).drop n ++ (frameBytes g).take n).length = 25 := by
  simp only [List.length_append, List.length_drop, List.length_take, frameBytes_length]
  omega

theorem frameByte_windowAt_header (f g : FrameWord) {n : Nat} (hn : n < 25) :
    frameByte (windowAt f g n) 0 = frameByte f n := by
  rw [windowAt, frameByte_frameOfBytes (windowAt_length f g hn.le), List.getD_append _ _ _ _ (by simpa using hn),
    ← frameBytes_getD f n, List.getD_eq_getElem?_getD, List.getD_eq_getElem?_getD, List.getElem?_drop, Nat.add_zero]

theorem frameByte_windowAt_footer (f g : FrameWord) {n : Nat} (hpos : 1 ≤ n) (hn : n ≤ 25) :
    frameByte (windowAt f g n) 24 = frameByte g (n - 1) := by
  have hdrop : ((frameBytes f).drop n).length = 25 - n := by simp
  have hindex : 24 - (25 - n) = n - 1 := by omega
  rw [windowAt, frameByte_frameOfBytes (windowAt_length f g hn), List.getD_append_right _ _ _ _ (by omega), hdrop,
    hindex, ← frameBytes_getD g (n - 1), List.getD_eq_getElem?_getD, List.getD_eq_getElem?_getD,
    List.getElem?_take_of_lt (by omega)]

/-- Settles O21: the window's header is byte `n` of the first frame and its footer byte `n - 1` of the second; at the
ends of the range these are the first frame's footer and the second frame's header. -/
theorem windowOutOfStep : Obligations.WindowOutOfStep := by
  rintro f g w n - hf24 hg0 - hpos hn rfl
  obtain ⟨badHeader, -, valid⟩ := classify_cases (windowAt f g n)
  rw [frameByte_windowAt_header f g (by omega)] at badHeader valid
  rw [frameByte_windowAt_footer f g hpos (by omega)] at valid
  refine ⟨?first, ?last, fun _ _ => valid⟩
  case first =>
    rintro rfl hvalid
    exact absurd (hg0.symm.trans (valid.mp hvalid).2) (by decide)
  case last =>
    rintro rfl
    exact badHeader.mpr (by rw [hf24]; decide)

end Sys2Proof.Machine
end

section
/-! PROOFS. Runs of INGEST and TRY_DECODE from EMPTY (`spec/40_accumulator.md` rules R100, R101): while fewer than 25
bytes have been offered nothing is decoded, and the 25th completes the window. -/

namespace Sys2Proof.Machine

theorem SameOutside.trans {s t u : State} (hst : SameOutside s t) (htu : SameOutside t u) : SameOutside s u :=
  ⟨htu.1.trans hst.1, htu.2.trans hst.2⟩

theorem SameOutside.config_eq {s t : State} (h : SameOutside s t) : t.config = s.config := h.2

/-- The last result is no part of what the accumulator holds. -/
theorem State.Holds.withResult {s : State} {bs : List Byte} (h : s.Holds bs) (r : Result) :
    State.Holds { s with result := r } bs := h

theorem fillCount_eq_zero_of_holds_nil {s : State} (h : s.Holds []) : s.fillCount = 0 := Fin.ext h.1

/-- INGEST appends to the held bytes as many as there is room for. -/
theorem exec_ingest_holds {s : State} {bs : List Byte} (h : s.Holds bs) (data : List Byte) :
    ∃ t : State, exec (.ingest data) s = .next t ∧ t.Holds (bs ++ data.take (25 - bs.length)) ∧
      t.result = .accepted (acceptedOf s.fillCount data.length) :=
  ⟨_, exec_ingest data s, append_holds h data _, rfl⟩

/-- INGEST accepts all it is offered when there is room for it. -/
theorem exec_ingest_fits {s : State} {bs data : List Byte} (h : s.Holds bs) (hroom : bs.length + data.length ≤ 25) :
    ∃ t : State, exec (.ingest data) s = .next t ∧ t.Holds (bs ++ data) ∧
      t.result = .accepted (acceptedOf 0 data.length) := by
  obtain ⟨t, ht, hholds, hresult⟩ := exec_ingest_holds h data
  rw [List.take_of_length_le (by omega)] at hholds
  refine ⟨t, ht, hholds, hresult.trans (congrArg Result.accepted (Fin.ext ?_))⟩
  rw [acceptedOf_val, acceptedOf_val, h.1, Fin.val_zero]
  omega

/-- The operations are INGESTs and TRY_DECODEs, no byte is offered beyond the 25th, counting from `held` bytes, and no
TRY_DECODE comes after the 25th (R100). -/
def Starved (held : Nat) (ops : List Instr) : Prop :=
  (∀ i ∈ ops, i = .tryDecode ∨ ∃ data : List Byte, i = .ingest data) ∧ held + (offered ops).length ≤ 25 ∧
    ∀ pre post : List Instr, ops = pre ++ .tryDecode :: post → held + (offered pre).length < 25

theorem Starved.of_tryDecode {held : Nat} {ops : List Instr} (h : Starved held (.tryDecode :: ops)) :
    held < 25 ∧ Starved held ops := by
  obtain ⟨hops, hroom, hearly⟩ := h
  refine ⟨hearly [] ops rfl, fun i hi => hops i (List.mem_cons_of_mem _ hi), hroom, fun pre post hsplit => ?_⟩
  exact hearly (.tryDecode :: pre) post (by rw [hsplit, List.cons_append])

theorem Starved.of_ingest {held : Nat} {data : List Byte} {ops : List Instr}
    (h : Starved held (.ingest data :: ops)) :
    held + data.length ≤ 25 ∧ Starved (held + data.length) ops := by
  obtain ⟨hops, hroom, hearly⟩ := h
  rw [offered, List.length_append] at hroom
  refine ⟨by omega, fun i hi => hops i (List.mem_cons_of_mem _ hi), by omega, fun pre post hsplit => ?_⟩
  have hpre := hearly (.ingest data :: pre) post (by rw [hsplit, List.cons_append])
  rw [offered, List.length_append] at hpre
  omega

/-- A starved run decodes nothing, accepts every byte and leaves the buffer holding them all. -/
theorem runOps_of_starved (ops : List Instr) {s : State} {bs : List Byte} (hs : s.Holds bs)
    (h : Starved bs.length ops) :
    ∃ t : State, runOps ops s = .next (t, ops.map starvedResult) ∧ t.Holds (bs ++ offered ops) ∧ SameOutside s t := by
  induction ops generalizing s bs with
  | nil => exact ⟨s, rfl, by rwa [offered, List.append_nil], rfl, rfl⟩
  | cons i ops ih =>
    obtain rfl | ⟨data, rfl⟩ := h.1 i List.mem_cons_self
    · obtain ⟨hlt, hlater⟩ := h.of_tryDecode
      obtain ⟨t, hrun, hholds, hout⟩ := ih (hs.withResult notReadyResult) hlater
      exact ⟨t, runOps_cons (exec_tryDecode_notFull (by rwa [hs.1])) hrun, hholds, hout⟩
    · obtain ⟨hroom, hlater⟩ := h.of_ingest
      obtain ⟨t, ht, hholds, hresult⟩ := exec_ingest_fits hs hroom
      obtain ⟨u, hrun, hheld, hout⟩ := ih hholds (by rwa [List.length_append])
      refine ⟨u, ?_, by rwa [offered, ← List.append_assoc], (exec_sameOutside ht).trans hout⟩
      rw [runOps_cons ht hrun, hresult]
      rfl

/-- A starved run that offers 25 bytes from EMPTY, and the TRY_DECODE after it, which judges them. -/
theorem runOps_window {ops : List Instr} {s : State} (hs : s.fillCount = 0) (h : Starved 0 ops)
    (hl : (offered ops).length = 25) :
    ∃ t : State, runOps (ops ++ [.tryDecode]) s =
        .next (t, ops.map starvedResult ++ [windowResult s.config.ctrlKind (frameOfBytes (offered ops))]) ∧
      t.fillCount = 0 ∧ SameOutside s t := by
  obtain ⟨t, hrun, hholds, hout⟩ := runOps_of_starved ops (holds_nil hs) h
  have hjudge : exec .tryDecode t = _ := exec_tryDecode_holds hholds hl
  rw [hout.config_eq] at hjudge
  exact ⟨_, runOps_append hrun (runOps_cons hjudge rfl), discard_fillCount t,
    hout.trans (exec_sameOutside hjudge)⟩

/-- Settles O18: the run is starved, and the window it completes is the VALID frame. -/
theorem frameInPiecesDecodes : Obligations.FrameInPiecesDecodes := by
  intro ops f s hs hops hoffered h0 h24 hearly
  have hl : (offered ops).length = 25 := by rw [hoffered, frameBytes_length]
  have hstarved : Starved 0 ops := ⟨hops, by omega, fun pre post hsplit => by simpa using hearly pre post hsplit⟩
  obtain ⟨t, hrun, hfill, hout⟩ := runOps_window hs hstarved hl
  rw [hoffered, frameOfBytes_frameBytes, windowResult_of_valid _ h0 h24] at hrun
  exact ⟨t, hrun, hfill, hout⟩

theorem offered_map_ingest (pieces : List (List Byte)) : offered (pieces.map .ingest) = pieces.flatten := by
  induction pieces with
  | nil => rfl
  | cons piece pieces ih => rw [List.map_cons, offered, ih, List.flatten_cons]

/-- INGESTs of at most 25 bytes in all are a starved run. -/
theorem starved_map_ingest {pieces : List (List Byte)} (hl : pieces.flatten.length ≤ 25) :
    Starved 0 (pieces.map .ingest) := by
  refine ⟨fun i hi => ?_, by rwa [offered_map_ingest, Nat.zero_add], fun pre post hsplit => ?_⟩
  · obtain ⟨piece, -, rfl⟩ := List.mem_map.mp hi
    exact .inr ⟨piece, rfl⟩
  · have hmem : Instr.tryDecode ∈ pieces.map Instr.ingest := by simp [hsplit]
    simp at hmem

/-- From EMPTY, 25 bytes in pieces of any sizes are accepted and judged. -/
theorem runOps_pieces {pieces : List (List Byte)} {s : State} (hs : s.fillCount = 0) (hl : pieces.flatten.length = 25) :
    ∃ (t : State) (as : List Result), runOps (pieces.map .ingest ++ [.tryDecode]) s =
        .next (t, as ++ [windowResult s.config.ctrlKind (frameOfBytes pieces.flatten)]) ∧
      t.fillCount = 0 ∧ SameOutside s t := by
  obtain ⟨t, hrun, hfill, hout⟩ :=
    runOps_window hs (starved_map_ingest hl.le) (by rw [offered_map_ingest, hl])
  rw [offered_map_ingest] at hrun
  exact ⟨t, _, hrun, hfill, hout⟩

/-- Settles O19: the bad window is judged and leaves EMPTY, from which the good one is judged. -/
theorem recoveryAfterBadHeader : Obligations.RecoveryAfterBadHeader := by
  intro bad good f s hs hl hbad hgood h0 h24
  obtain ⟨t, as, hrun, hfill, hout⟩ := runOps_pieces hs hl
  have hheader : frameByte (frameOfBytes bad.flatten) 0 ≠ 0x0F#8 :=
    mt (frameByte_frameOfBytes_eq_iff hl (by decide)).mp hbad
  rw [windowResult_of_badHeader _ hheader] at hrun
  obtain ⟨u, bs, hrun', hfill', -⟩ := runOps_pieces hfill (pieces := good) (by rw [hgood, frameBytes_length])
  rw [hgood, frameOfBytes_frameBytes, windowResult_of_valid _ h0 h24, hout.config_eq] at hrun'
  exact ⟨t, u, as, bs, hrun, hfill, allStale_of_fillCount_eq_zero hfill, hrun', hfill'⟩

end Sys2Proof.Machine
end

section
/-! PROOFS. FEED (`spec/30_encoding.md` rule R79, `spec/40_accumulator.md` rule R98; log entry 16): from EMPTY each
pass takes one window off the stream and judges it, and the last pass takes what is left. -/

namespace Sys2Proof.Machine

theorem observe_next {u v : State} {rest : State → RunOutcome} {rs : List Result} (h : rest u = .next (v, rs)) :
    observe (.next u) rest = .next (v, u.result :: rs) := by
  simp only [observe, h]

/-- One pass of FEED: INGEST, TRY_DECODE, and on with the bytes that were not accepted. -/
theorem feedPasses_succ {bytes : List Byte} {s t u : State} (ht : exec (.ingest bytes) s = .next t)
    (hu : exec .tryDecode t = .next u) (n : Nat) :
    feedPasses (n + 1) bytes s = observe (.next u) fun u =>
      if (bytes.drop (acceptedIn t.result)).isEmpty then .next (u, [])
      else feedPasses n (bytes.drop (acceptedIn t.result)) u := by
  simp only [feedPasses, ht, hu]

/-- From EMPTY, INGEST of a stream takes its first 25 bytes, or all of them. -/
theorem exec_ingest_stream {s : State} (hs : s.fillCount = 0) (bytes : List Byte) :
    ∃ t : State, exec (.ingest bytes) s = .next t ∧ t.Holds (bytes.take 25) ∧
      bytes.drop (acceptedIn t.result) = bytes.drop 25 := by
  obtain ⟨t, ht, hholds, hresult⟩ := exec_ingest_holds (holds_nil hs) bytes
  refine ⟨t, ht, by simpa using hholds, ?_⟩
  rw [hresult, acceptedIn, acceptedOf_val, hs, Fin.val_zero, List.drop_eq_drop_iff]
  omega

/-- TRY_DECODE on a buffer that holds the bytes of a frame word judges that word. -/
theorem exec_tryDecode_holds_frame {s : State} {w : FrameWord} (h : s.Holds (frameBytes w)) :
    exec .tryDecode s = .next { discard s with result := windowResult s.config.ctrlKind w } := by
  rw [exec_tryDecode_holds h (frameBytes_length w), frameOfBytes_frameBytes]

/-- A pass over a stream that begins with a window judges that window. -/
theorem feedPasses_window {s : State} (hs : s.fillCount = 0) (w : FrameWord) (rest : List Byte) (n : Nat) :
    ∃ u : State, u.fillCount = 0 ∧ SameOutside s u ∧ u.result = windowResult s.config.ctrlKind w ∧
      feedPasses (n + 1) (frameBytes w ++ rest) s = observe (.next u) fun u =>
        if rest.isEmpty then .next (u, []) else feedPasses n rest u := by
  obtain ⟨t, ht, hholds, hleft⟩ := exec_ingest_stream hs (frameBytes w ++ rest)
  rw [List.take_left' (frameBytes_length w)] at hholds
  rw [List.drop_left' (frameBytes_length w)] at hleft
  have hout := exec_sameOutside ht
  have hu := exec_tryDecode_holds_frame hholds
  refine ⟨_, ?_, hout.trans (exec_sameOutside hu), ?_, by rw [feedPasses_succ ht hu, hleft]⟩
  · exact discard_fillCount t
  · rw [hout.config_eq]

/-- A pass over fewer than 25 bytes keeps them and finds the buffer not ready. -/
theorem feedPasses_part {s : State} (hs : s.fillCount = 0) {part : List Byte} (hl : part.length < 25) (n : Nat) :
    ∃ t : State, feedPasses (n + 1) part s = .next (t, [notReadyResult]) ∧ t.Holds part ∧ SameOutside s t := by
  obtain ⟨t, ht, hholds, hleft⟩ := exec_ingest_stream hs part
  rw [List.take_of_length_le hl.le] at hholds
  rw [List.drop_of_length_le hl.le] at hleft
  have hu := exec_tryDecode_notFull (s := t) (by rw [hholds.1]; exact hl)
  refine ⟨_, ?_, hholds.withResult _, (exec_sameOutside ht).trans (exec_sameOutside hu)⟩
  rw [feedPasses_succ ht hu, hleft]
  exact observe_next rfl

/-- What FEED returns for the bytes after the last whole window (R79). -/
def partResults (part : List Byte) : List Result := if part.isEmpty then [] else [notReadyResult]

theorem length_stream (ws : List FrameWord) (part : List Byte) :
    (ws.flatMap frameBytes ++ part).length = 25 * ws.length + part.length := by
  simp [List.length_flatMap, Nat.mul_comm]

/-- FEED of whole windows and a part, with a pass for each. -/
theorem feedPasses_windows (ws : List FrameWord) {part : List Byte} (hl : part.length < 25)
    (hsome : ws ≠ [] ∨ part ≠ []) {n : Nat} (hn : ws.length < n) {s : State} (hs : s.fillCount = 0) :
    ∃ t : State, feedPasses n (ws.flatMap frameBytes ++ part) s =
        .next (t, ws.map (windowResult s.config.ctrlKind) ++ partResults part) ∧
      t.Holds part ∧ SameOutside s t := by
  induction ws generalizing n s with
  | nil =>
    have hpart : part ≠ [] := hsome.resolve_left (not_not.mpr rfl)
    obtain ⟨m, rfl⟩ := Nat.exists_eq_succ_of_ne_zero (Nat.ne_of_gt hn)
    simpa [partResults, hpart] using feedPasses_part hs hl m
  | cons w ws ih =>
    obtain ⟨m, rfl⟩ := Nat.exists_eq_succ_of_ne_zero (Nat.ne_of_gt (Nat.zero_lt_of_lt hn))
    obtain ⟨u, hfill, hout, hresult, hpass⟩ := feedPasses_window hs w (ws.flatMap frameBytes ++ part) m
    rw [List.flatMap_cons, List.append_assoc, hpass, List.map_cons, List.cons_append, ← hresult]
    by_cases hlast : ws = [] ∧ part = []
    · obtain ⟨rfl, rfl⟩ := hlast
      exact ⟨u, observe_next rfl, holds_nil hfill, hout⟩
    · have hmore : ws ≠ [] ∨ part ≠ [] := not_and_or.mp hlast
      obtain ⟨t, hrun, hholds, hout'⟩ := ih hmore (Nat.lt_of_succ_lt_succ hn) hfill
      have hleft : (ws.flatMap frameBytes ++ part).isEmpty = false := by
        rw [List.isEmpty_eq_false_iff, ← List.length_pos_iff, length_stream]
        obtain hws | hpart := hmore
        · have := List.length_pos_iff.mpr hws
          omega
        · have := List.length_pos_iff.mpr hpart
          omega
      rw [hout.config_eq] at hrun
      refine ⟨t, observe_next ?_, hholds, hout.trans hout'⟩
      rw [hleft]
      exact hrun

/-- FEED has more passes than windows. -/
theorem length_lt_passes (ws : List FrameWord) (part : List Byte) :
    ws.length < (ws.flatMap frameBytes ++ part).length + 2 := by
  rw [length_stream]
  omega

/-- Settles O20: no bytes are left after the last whole window. -/
theorem feedJudgesEveryWindowInOrder : Obligations.FeedJudgesEveryWindowInOrder := by
  intro ws s hws hs
  obtain ⟨t, hrun, hholds, hout⟩ :=
    feedPasses_windows ws (part := []) (by decide) (.inl hws) (length_lt_passes ws []) hs
  refine ⟨t, ?_, fillCount_eq_zero_of_holds_nil hholds, hout⟩
  simpa [feed, partResults] using hrun

/-- Settles O45: the bytes of the part are left in the buffer, and the last pass finds it not ready. -/
theorem feedKeepsAPartialWindow : Obligations.FeedKeepsAPartialWindow := by
  intro ws part s hpart hl hs
  obtain ⟨t, hrun, hholds, hout⟩ := feedPasses_windows ws hl (.inr hpart) (length_lt_passes ws part) hs
  refine ⟨t, ?_, hholds, hout⟩
  simpa [feed, partResults, hpart] using hrun

end Sys2Proof.Machine
end

section
/-! PROOFS. Rounding to binary32 (`spec/00_scope.md` rule R15; log entry 7): the pattern of `f32` decodes to a
multiple of a power of two that is at most half of it away from the exact rational. All values are times `2 ^ 149`, as
in `f32Scaled`. -/

namespace Sys2Proof.Machine

/-- The quotient `p / d` rounded to the nearest whole number, ties to even. -/
def roundHalfEven (p d : Nat) : Nat :=
  if d < 2 * (p % d) ∨ (2 * (p % d) = d ∧ p / d % 2 = 1) then p / d + 1 else p / d

/-- The binary exponent `f32` finds for `n / den`, plus 40. -/
def f32Log (n den : Nat) : Nat := Nat.log2 (n * 2 ^ 40 / den)

/-- The significand `f32` finds for `n / den`: 2^23 to 2^24. -/
def f32Significand (n den : Nat) : Nat := roundHalfEven (n * 2 ^ 63) (den * 2 ^ f32Log n den)

/-- The pattern with a sign, the exponent field of `2 ^ e` and a significand that starts at 2^23. -/
def f32Pattern (neg : Bool) (e m : Nat) : F32 := BitVec.ofNat 32 ((if neg then 2 ^ 31 else 0) + e * 2 ^ 23 + m)

theorem f32_eq_pattern {num : Int} (h : num ≠ 0) (den : Nat) :
    f32 num den = f32Pattern (num < 0) (f32Log num.natAbs den + 86) (f32Significand num.natAbs den) := by
  have hn : num.natAbs ≠ 0 := Int.natAbs_ne_zero.mpr h
  simp only [f32, if_neg hn, f32Pattern, f32Significand, f32Log, roundHalfEven, decide_eq_true_eq]
  congr

/-- The rounded quotient is within one half of the exact one. -/
theorem roundHalfEven_near (p : Nat) {d : Nat} (hd : 0 < d) :
    2 * (roundHalfEven p d * d) ≤ 2 * p + d ∧ 2 * p ≤ 2 * (roundHalfEven p d * d) + d := by
  have hdiv := Nat.div_add_mod' p d
  have hmod := Nat.mod_lt p hd
  unfold roundHalfEven
  split_ifs with hup
  · rw [Nat.add_mul, Nat.one_mul]
    omega
  · omega

theorem roundHalfEven_bounds {p d lo hi : Nat} (hlo : lo * d ≤ p) (hhi : p < hi * d) :
    lo ≤ roundHalfEven p d ∧ roundHalfEven p d ≤ hi := by
  have hd : 0 < d := Nat.pos_of_ne_zero (by rintro rfl; simp at hhi)
  have hlo' : lo ≤ p / d := (Nat.le_div_iff_mul_le hd).mpr hlo
  have hhi' : p / d < hi := (Nat.div_lt_iff_lt_mul hd).mpr hhi
  unfold roundHalfEven
  split_ifs <;> omega

/-- The exponent brings the quotient into the range of a significand. -/
theorem f32Log_spec {n den : Nat} (hden : 0 < den) (hlow : den ≤ n * 2 ^ 40) :
    2 ^ 23 * (den * 2 ^ f32Log n den) ≤ n * 2 ^ 63 ∧ n * 2 ^ 63 < 2 ^ 24 * (den * 2 ^ f32Log n den) := by
  have hquot : n * 2 ^ 40 / den ≠ 0 := (Nat.div_pos hlow hden).ne'
  have hle : 2 ^ f32Log n den * den ≤ n * 2 ^ 40 := (Nat.le_div_iff_mul_le hden).mp (Nat.log2_self_le hquot)
  have hlt : n * 2 ^ 40 < 2 ^ (f32Log n den + 1) * den := (Nat.div_lt_iff_lt_mul hden).mp Nat.lt_log2_self
  rw [pow_succ 2 (f32Log n den), Nat.mul_right_comm] at hlt
  rw [Nat.mul_comm den]
  omega

theorem f32Significand_bounds {n den : Nat} (hden : 0 < den) (hlow : den ≤ n * 2 ^ 40) :
    2 ^ 23 ≤ f32Significand n den ∧ f32Significand n den ≤ 2 ^ 24 :=
  have ⟨hlo, hhi⟩ := f32Log_spec hden hlow
  roundHalfEven_bounds hlo hhi

theorem f32Exp_eq (p : F32) : f32Exp p = p.toNat / 2 ^ 23 % 256 := by
  simp [f32Exp, BitVec.extractLsb'_toNat, Nat.shiftRight_eq_div_pow]

theorem f32Frac_eq (p : F32) : f32Frac p = p.toNat % 2 ^ 23 := by
  simp [f32Frac, BitVec.extractLsb'_toNat]

theorem f32Neg_eq (p : F32) : f32Neg p = decide (2 ^ 31 ≤ p.toNat) := by
  rw [f32Neg, ← BitVec.msb_eq_getLsbD_last, BitVec.msb_eq_decide]

theorem f32Pattern_toNat (neg : Bool) {e m : Nat} (he : e + 2 < 255) (hm : m ≤ 2 ^ 24) :
    (f32Pattern neg e m).toNat = (if neg then 2 ^ 31 else 0) + e * 2 ^ 23 + m := by
  rw [f32Pattern, BitVec.toNat_ofNat, Nat.mod_eq_of_lt]
  split_ifs <;> omega

/-- A significand of 2^24 carries into the exponent, which leaves the value. -/
theorem f32Mag_pattern (neg : Bool) {e m : Nat} (he : e + 2 < 255) (hlo : 2 ^ 23 ≤ m) (hhi : m ≤ 2 ^ 24) :
    f32Mag (f32Pattern neg e m) = m * 2 ^ e := by
  have hnat := f32Pattern_toNat neg he hhi
  have hsign : (if neg then 2 ^ 31 else 0) = 2 ^ 31 * (if neg then 1 else 0) := by cases neg <;> rfl
  rw [hsign] at hnat
  by_cases hcarry : m = 2 ^ 24
  · have hexp : f32Exp (f32Pattern neg e m) = e + 2 := by rw [f32Exp_eq, hnat]; omega
    have hfrac : f32Frac (f32Pattern neg e m) = 0 := by rw [f32Frac_eq, hnat]; omega
    rw [f32Mag, hexp, hfrac, if_neg (by omega), hcarry, Nat.add_sub_cancel (m := 1) (n := e + 1), Nat.pow_succ]
    omega
  · have hexp : f32Exp (f32Pattern neg e m) = e + 1 := by rw [f32Exp_eq, hnat]; omega
    have hfrac : f32Frac (f32Pattern neg e m) = m - 2 ^ 23 := by rw [f32Frac_eq, hnat]; omega
    rw [f32Mag, hexp, hfrac, if_neg (by omega), Nat.add_sub_cancel' hlo, Nat.add_sub_cancel]

theorem f32Finite_pattern (neg : Bool) {e m : Nat} (he : e + 2 < 255) (hhi : m ≤ 2 ^ 24) :
    f32Finite (f32Pattern neg e m) = true := by
  have hnat := f32Pattern_toNat neg he hhi
  have hsign : (if neg then 2 ^ 31 else 0) = 2 ^ 31 * (if neg then 1 else 0) := by cases neg <;> rfl
  rw [f32Finite, bne_iff_ne, f32Exp_eq, hnat]
  omega

theorem f32Neg_pattern (neg : Bool) {e m : Nat} (he : e + 2 < 255) (hhi : m ≤ 2 ^ 24) :
    f32Neg (f32Pattern neg e m) = neg := by
  rw [f32Neg_eq, f32Pattern_toNat neg he hhi]
  cases neg <;> simp <;> omega

/-- The rationals `f32` is right for: a magnitude of at least 2^-40 and less than 2^120. -/
def F32Normal (num : Int) (den : Nat) : Prop :=
  0 < den ∧ den ≤ num.natAbs * 2 ^ 40 ∧ num.natAbs * 2 ^ 40 < 2 ^ 160 * den

theorem F32Normal.ne_zero {num : Int} {den : Nat} (h : F32Normal num den) : num ≠ 0 := by
  rintro rfl
  obtain ⟨hden, hlow, -⟩ := h
  simp at hlow
  omega

theorem F32Normal.f32Log_lt {num : Int} {den : Nat} (h : F32Normal num den) : f32Log num.natAbs den < 160 := by
  obtain ⟨hden, hlow, hhigh⟩ := h
  exact (Nat.log2_lt (Nat.div_pos hlow hden).ne').mpr ((Nat.div_lt_iff_lt_mul hden).mpr hhigh)

theorem f32Finite_f32 {num : Int} {den : Nat} (h : F32Normal num den) : f32Finite (f32 num den) = true := by
  have hlog := h.f32Log_lt
  obtain ⟨hden, hlow, -⟩ := id h
  rw [f32_eq_pattern h.ne_zero]
  exact f32Finite_pattern _ (by omega) (f32Significand_bounds hden hlow).2

/-- The exact value of the rounded rational. -/
theorem f32Scaled_f32 {num : Int} {den : Nat} (h : F32Normal num den) :
    f32Scaled (f32 num den) =
      num.sign * (f32Significand num.natAbs den * 2 ^ (f32Log num.natAbs den + 86) : Nat) := by
  have hlog := h.f32Log_lt
  obtain ⟨hden, hlow, -⟩ := id h
  obtain ⟨hlo, hhi⟩ := f32Significand_bounds hden hlow
  rw [f32_eq_pattern h.ne_zero, f32Scaled, f32Neg_pattern _ (by omega) hhi, f32Mag_pattern _ (by omega) hlo hhi]
  obtain hneg | hpos := lt_or_gt_of_ne h.ne_zero
  · rw [Int.sign_eq_neg_one_of_neg hneg, decide_eq_true hneg, if_pos rfl, Int.neg_one_mul]
  · rw [Int.sign_eq_one_of_pos hpos, decide_eq_false hpos.not_gt, if_neg Bool.false_ne_true, Int.one_mul]

/-- `v` is a multiple of `2 ^ e` within one half of `2 ^ e` of `N / den`, which has at least 24 binary digits above
`2 ^ e`. -/
structure RoundedTo (v N : Int) (den e : Nat) : Prop where
  dvd : (2 : Int) ^ e ∣ v
  near : 2 * |v * den - N| ≤ den * 2 ^ e
  normal : 2 ^ 23 * (den * 2 ^ e : Int) ≤ |N|

theorem abs_sign_mul {num : Int} (h : num ≠ 0) (x : Int) : |num.sign * x| = |x| := by
  rw [abs_mul, Int.abs_sign_of_ne_zero h, one_mul]

/-- `f32` rounds to nearest, and its significand has all of its 24 digits. -/
theorem f32_roundedTo {num : Int} {den : Nat} (h : F32Normal num den) :
    ∃ e, RoundedTo (f32Scaled (f32 num den)) (num * 2 ^ 149) den e := by
  obtain ⟨hden, hlow, -⟩ := id h
  obtain ⟨hnormal, -⟩ := f32Log_spec hden hlow
  have hscale : 0 < den * 2 ^ f32Log num.natAbs den := Nat.mul_pos hden (Nat.two_pow_pos _)
  obtain ⟨hbelow, habove⟩ := roundHalfEven_near (num.natAbs * 2 ^ 63) hscale
  have hnum : num * 2 ^ 149 = num.sign * (num.natAbs * 2 ^ 149) := by rw [← mul_assoc, Int.sign_mul_natAbs]
  rw [f32Scaled_f32 h, hnum]
  change 2 * (f32Significand num.natAbs den * _) ≤ _ at hbelow
  change _ ≤ 2 * (f32Significand num.natAbs den * _) + _ at habove
  generalize f32Significand num.natAbs den = m at *
  generalize f32Log num.natAbs den = l at *
  generalize num.natAbs = n at *
  have hunit : (den : Int) * 2 ^ (l + 86) = ((den * 2 ^ l : Nat) : Int) * 2 ^ 86 := by
    push_cast
    ring
  have hvalue : ((m * 2 ^ (l + 86) : Nat) : Int) * den = ((m * (den * 2 ^ l) : Nat) : Int) * 2 ^ 86 := by
    push_cast
    ring
  refine ⟨l + 86, ?_, ?_, ?_⟩
  · exact Dvd.dvd.mul_left (by push_cast; exact Dvd.intro_left _ rfl) _
  · rw [mul_assoc, ← mul_sub, abs_sign_mul h.ne_zero, hvalue, hunit]
    generalize m * (den * 2 ^ l) = x at *
    have hdist : |(x : Int) * 2 ^ 86 - n * 2 ^ 149| ≤ ((den * 2 ^ l : Nat) : Int) * 2 ^ 85 :=
      abs_le.mpr ⟨by omega, by omega⟩
    omega
  · rw [abs_sign_mul h.ne_zero, hunit, abs_of_nonneg (by omega)]
    omega

end Sys2Proof.Machine
end

section
/-! PROOFS. What follows from rounding to nearest (`spec/00_scope.md` rule R15; log entry 7): a bound on the error,
and that no other binary32 number is as near. -/

namespace Sys2Proof.Machine

/-- The error is at most 2^-24 of the rational. -/
theorem RoundedTo.relative_error {v N : Int} {den e : Nat} (h : RoundedTo v N den e) :
    2 ^ 24 * |v * den - N| ≤ |N| := by
  have hnear := h.near
  have hnormal := h.normal
  generalize (den * 2 ^ e : Int) = unit at *
  omega

/-- Numbers off the rounded one by whole units are farther when the rational is no tie. -/
theorem RoundedTo.lt_of_dvd {v N : Int} {den e : Nat} (h : RoundedTo v N den e)
    (hnoTie : 2 * |v * den - N| < den * 2 ^ e) {x : Int} (hx : (2 : Int) ^ e ∣ x) (hne : x ≠ v) :
    |v * den - N| < |x * den - N| := by
  obtain ⟨k, hk⟩ := dvd_sub hx h.dvd
  have hk0 : k ≠ 0 := by
    rintro rfl
    exact hne (sub_eq_zero.mp (by rw [hk, mul_zero]))
  have hapart : (den * 2 ^ e : Int) ≤ |x * den - v * den| := by
    rw [← sub_mul, hk, mul_right_comm, abs_mul, abs_of_nonneg (by positivity), mul_comm (2 ^ e : Int)]
    exact le_mul_of_one_le_right (by positivity) (Int.one_le_abs hk0)
  have htriangle : |x * den - v * den| ≤ |x * den - N| + |v * den - N| := by
    rw [abs_sub_comm (v * den)]
    exact abs_sub_le _ _ _
  omega

/-- Numbers too small for 24 digits above `2 ^ e` are farther as well: the least number with 24 digits lies between. -/
theorem RoundedTo.lt_of_small {v N : Int} {den e : Nat} (h : RoundedTo v N den e) (hden : 0 < den)
    (hnoTie : 2 * |v * den - N| < den * 2 ^ e) {x : Int} (hx : |x| < 2 ^ 23 * 2 ^ e) :
    |v * den - N| < |x * den - N| := by
  have hnormal := h.normal
  have hunit : (0 : Int) < den * 2 ^ e := by positivity
  have hleast : |v * den - N| ≤ |N| - 2 ^ 23 * (den * 2 ^ e) := by
    have hN : N ≠ 0 := abs_pos.mp (by omega)
    have hy : |N.sign * (2 ^ 23 * 2 ^ e) * den - N| = |N| - 2 ^ 23 * (den * 2 ^ e) := by
      have hsplit : N.sign * (2 ^ 23 * 2 ^ e) * den - N = N.sign * (2 ^ 23 * (den * 2 ^ e) - |N|) := by
        rw [mul_sub, Int.sign_mul_abs]
        ring
      rw [hsplit, abs_sign_mul hN, abs_sub_comm, abs_of_nonneg (by omega)]
    by_cases hv : N.sign * (2 ^ 23 * 2 ^ e) = v
    · rw [← hv, hy]
    · rw [← hy]
      exact (h.lt_of_dvd hnoTie (Dvd.dvd.mul_left (Dvd.intro_left _ rfl) _) hv).le
  have hsmall : |x * den| < 2 ^ 23 * (den * 2 ^ e) := by
    rw [abs_mul, Nat.abs_cast]
    calc |x| * den < 2 ^ 23 * 2 ^ e * den := by gcongr
      _ = 2 ^ 23 * (den * 2 ^ e) := by ring
  have htriangle : |N| - |x * den| ≤ |x * den - N| := by
    rw [abs_sub_comm (x * den)]
    exact abs_sub_abs_le_abs_sub _ _
  omega

/-- The value of every pattern is a multiple of `2 ^ e` or too small for 24 digits above it. -/
theorem f32Scaled_small_or_dvd (p : F32) (e : Nat) :
    |f32Scaled p| < 2 ^ 23 * 2 ^ e ∨ (2 : Int) ^ e ∣ f32Scaled p := by
  have hfrac : f32Frac p < 2 ^ 23 := (p.extractLsb' 0 23).isLt
  have hmag : f32Mag p < 2 ^ 23 * 2 ^ e ∨ 2 ^ e ∣ f32Mag p := by
    unfold f32Mag
    split_ifs with hexp
    · exact .inl (lt_of_lt_of_le hfrac (Nat.le_mul_of_pos_right _ (Nat.two_pow_pos e)))
    · obtain hle | hlt := le_or_gt e (f32Exp p - 1)
      · exact .inr (Dvd.dvd.mul_left (pow_dvd_pow 2 hle) _)
      · left
        calc (2 ^ 23 + f32Frac p) * 2 ^ (f32Exp p - 1) < 2 ^ 24 * 2 ^ (f32Exp p - 1) := by
              gcongr
              omega
          _ = 2 ^ 23 * 2 ^ (f32Exp p - 1 + 1) := by rw [pow_succ 2 (f32Exp p - 1)]; omega
          _ ≤ 2 ^ 23 * 2 ^ e := by
              gcongr
              · decide
              · omega
  have habs : |f32Scaled p| = f32Mag p := by
    unfold f32Scaled
    split_ifs
    · rw [abs_neg, Nat.abs_cast]
    · exact Nat.abs_cast _
  obtain hsmall | hdvd := hmag
  · left
    rw [habs]
    exact_mod_cast hsmall
  · right
    rw [← dvd_abs, habs]
    exact_mod_cast hdvd

/-- The value of a rounded rational is nearer to it than that of any pattern of another value, when it is no tie. -/
theorem RoundedTo.nearest {v N : Int} {den e : Nat} (h : RoundedTo v N den e) (hden : 0 < den)
    (hnoTie : 2 * |v * den - N| < den * 2 ^ e) {p : F32} (hne : f32Scaled p ≠ v) :
    |v * den - N| < |f32Scaled p * den - N| := by
  obtain hsmall | hdvd := f32Scaled_small_or_dvd p e
  · exact h.lt_of_small hden hnoTie hsmall
  · exact h.lt_of_dvd hnoTie hdvd hne

end Sys2Proof.Machine
end

section
/-! PROOFS. AXIS (`spec/42_calibrator.md` rules R131 to R133; log entry 7): its value is the rounding of a whole
number over 800, the distance from the centre with the dead zone taken out and the ends clamped. -/

namespace Sys2Proof.Machine

/-- The value, times 2^149, of `d / 800` rounded. -/
def scaled800 (d : Int) : Int := f32Scaled (f32 d axisSpan)

/-- The distance from the centre with the dead zone taken out and the ends clamped (R132). -/
def deadClamp (d : Int) : Int := if -15 ≤ d ∧ d ≤ 15 then 0 else max (-800) (min 800 d)

theorem f32Normal_800 {d : Int} (h0 : d ≠ 0) (hlo : -2048 ≤ d) (hhi : d ≤ 2048) : F32Normal d 800 := by
  refine ⟨by decide, ?_, ?_⟩ <;> omega

theorem scaled800_zero : scaled800 0 = 0 := by decide

theorem scaled800_span : scaled800 800 = 2 ^ 149 := by decide

/-- Rounding errs by less than 1/8192 in units of 1/800. -/
theorem scaled800_error {d : Int} (hlo : -2048 ≤ d) (hhi : d ≤ 2048) :
    |scaled800 d * 800 - d * 2 ^ 149| ≤ 2 ^ 136 := by
  by_cases h0 : d = 0
  · rw [h0, scaled800_zero]
    norm_num
  · obtain ⟨e, hround⟩ := f32_roundedTo (f32Normal_800 h0 hlo hhi)
    have herror : 2 ^ 24 * |scaled800 d * 800 - d * 2 ^ 149| ≤ |d * 2 ^ 149| := hround.relative_error
    have hd : |d * 2 ^ 149| ≤ 2048 * 2 ^ 149 := abs_le.mpr ⟨by omega, by omega⟩
    omega

theorem scaled800_neg {d : Int} (hlo : -2048 ≤ d) (hhi : d ≤ 2048) : scaled800 (-d) = -scaled800 d := by
  by_cases h0 : d = 0
  · rw [h0, neg_zero, scaled800_zero, neg_zero]
  · rw [scaled800, scaled800, f32Scaled_f32 (f32Normal_800 h0 hlo hhi),
      f32Scaled_f32 (f32Normal_800 (neg_ne_zero.mpr h0) (by omega) (by omega)), Int.natAbs_neg, Int.sign_neg, neg_mul]

/-- Different numbers of 800ths are rounded to values that differ by more than 2^-23. -/
theorem scaled800_gap {c d : Int} (hlo : -2048 ≤ c) (hlt : c < d) (hhi : d ≤ 2048) :
    scaled800 c + 2 ^ 126 < scaled800 d := by
  have hc := abs_le.mp (scaled800_error hlo (by omega))
  have hd := abs_le.mp (scaled800_error (by omega) hhi)
  omega

theorem scaled800_lt_iff {c d : Int} (hclo : -2048 ≤ c) (hchi : c ≤ 2048) (hdlo : -2048 ≤ d) (hdhi : d ≤ 2048) :
    scaled800 c < scaled800 d ↔ c < d := by
  obtain hlt | rfl | hgt := lt_trichotomy c d
  · have := scaled800_gap hclo hlt hdhi
    omega
  · simp
  · have := scaled800_gap hdlo hgt hchi
    omega

theorem scaled800_le {c d : Int} (hlo : -2048 ≤ c) (hle : c ≤ d) (hhi : d ≤ 2048) : scaled800 c ≤ scaled800 d := by
  have := scaled800_lt_iff (c := d) (d := c) (by omega) hhi hlo (by omega)
  omega

/-- The comparison of the dead zone is one of whole numbers. -/
theorem abs_scaled800_lt_iff {d : Int} (hlo : -2048 ≤ d) (hhi : d ≤ 2048) :
    |scaled800 d| < scaled800 16 ↔ -15 ≤ d ∧ d ≤ 15 := by
  rw [abs_lt, ← scaled800_neg (by decide) (by decide), scaled800_lt_iff (by decide) (by decide) hlo hhi,
    scaled800_lt_iff hlo hhi (by decide) (by decide)]
  omega

/-- The constants AXIS compares with are 16, 800 and -800 over 800. -/
theorem f32_axisConstants :
    f32 axisDeadzoneNum axisDeadzoneDen = f32 16 axisSpan ∧ f32 1 1 = f32 800 axisSpan ∧
      f32 (-1) 1 = f32 (-800) axisSpan := by decide

theorem f32_clamps : f32 800 axisSpan = 0x3F800000#32 ∧ f32 (-800) axisSpan = 0xBF800000#32 := by decide

/-- AXIS in terms of `scaled800`. -/
theorem axis_eq_ite (raw : Nat) :
    axis raw =
      if |scaled800 (raw - 1000)| < scaled800 16 then 0x00000000#32
      else if scaled800 (raw - 1000) > scaled800 800 then 0x3F800000#32
      else if scaled800 (raw - 1000) < scaled800 (-800) then 0xBF800000#32
      else f32 (raw - 1000) axisSpan := by
  obtain ⟨hzone, hone, hnegOne⟩ := f32_axisConstants
  simp only [axis, hzone, hone, hnegOne]
  rfl

theorem deadClamp_of_small {d : Int} (h : -15 ≤ d ∧ d ≤ 15) : deadClamp d = 0 := if_pos h

theorem deadClamp_of_high {d : Int} (h : 800 ≤ d) : deadClamp d = 800 := by
  rw [deadClamp, if_neg (by omega)]
  omega

theorem deadClamp_of_low {d : Int} (h : d ≤ -800) : deadClamp d = -800 := by
  rw [deadClamp, if_neg (by omega)]
  omega

theorem deadClamp_of_mid {d : Int} (h : ¬ (-15 ≤ d ∧ d ≤ 15)) (hlo : -800 ≤ d) (hhi : d ≤ 800) : deadClamp d = d := by
  rw [deadClamp, if_neg h]
  omega

theorem deadClamp_bounds (d : Int) : -800 ≤ deadClamp d ∧ deadClamp d ≤ 800 := by
  unfold deadClamp
  split_ifs <;> omega

theorem deadClamp_neg (d : Int) : deadClamp (-d) = -deadClamp d := by
  unfold deadClamp
  split_ifs <;> omega

theorem deadClamp_mono {c d : Int} (h : c ≤ d) : deadClamp c ≤ deadClamp d := by
  unfold deadClamp
  split_ifs <;> omega

/-- AXIS is one rounding of a whole number over 800. -/
theorem axis_eq {raw : Nat} (hraw : raw ≤ 2047) : axis raw = f32 (deadClamp (raw - 1000)) axisSpan := by
  obtain ⟨hclamp, hnegClamp⟩ := f32_clamps
  rw [axis_eq_ite]
  have hlo : -2048 ≤ (raw - 1000 : Int) := by omega
  have hhi : (raw - 1000 : Int) ≤ 2048 := by omega
  generalize (raw - 1000 : Int) = d at *
  have hone : scaled800 d > scaled800 800 ↔ 800 < d := scaled800_lt_iff (by decide) (by decide) hlo hhi
  have hnegOne : scaled800 d < scaled800 (-800) ↔ d < -800 := scaled800_lt_iff hlo hhi (by decide) (by decide)
  simp only [abs_scaled800_lt_iff hlo hhi, hone, hnegOne]
  split_ifs with hzone hhigh hlow
  · rw [deadClamp_of_small hzone, f32_zero]
  · rw [deadClamp_of_high hhigh.le, hclamp]
  · rw [deadClamp_of_low hlow.le, hnegClamp]
  · rw [deadClamp_of_mid hzone (by omega) (by omega)]

theorem f32Scaled_axis {raw : Nat} (hraw : raw ≤ 2047) : f32Scaled (axis raw) = scaled800 (deadClamp (raw - 1000)) := by
  rw [axis_eq hraw, scaled800]

/-- A Channel Value is at most 2047. -/
theorem channel_le (raw : Channel) : raw.toNat ≤ 2047 := Nat.le_of_lt_succ raw.isLt

theorem f32Finite_axis {raw : Nat} (hraw : raw ≤ 2047) : f32Finite (axis raw) = true := by
  rw [axis_eq hraw]
  obtain ⟨hlo, hhi⟩ := deadClamp_bounds (raw - 1000)
  by_cases h0 : deadClamp (raw - 1000) = 0
  · rw [h0]
    decide
  · exact f32Finite_f32 (f32Normal_800 h0 (by omega) (by omega))

/-- `axis_q` is the rational that AXIS rounds. -/
theorem axisQ_eq (raw : Nat) : axisQ raw = (deadClamp (raw - 1000) : Rat) / 800 := by
  have hq : axisQ raw = if |(raw - 1000 : Int)| ≤ 15 then 0 else if (raw - 1000 : Int) ≥ 800 then 1
      else if (raw - 1000 : Int) ≤ -800 then -1 else ((raw - 1000 : Int) : Rat) / 800 := rfl
  rw [hq]
  generalize (raw - 1000 : Int) = d
  rw [if_congr abs_le rfl rfl]
  split_ifs with hzone hhigh hlow
  · rw [deadClamp_of_small hzone]
    norm_num
  · rw [deadClamp_of_high hhigh]
    norm_num
  · rw [deadClamp_of_low hlow]
    norm_num
  · rw [deadClamp_of_mid hzone (by omega) (by omega)]

/-- Rounding a quotient of whole numbers is rounding it in lowest terms. -/
theorem f32_num_den (num : Int) {den : Nat} (hden : den ≠ 0) :
    f32 ((num : Rat) / den).num ((num : Rat) / den).den = f32 num den := by
  obtain ⟨c, hnum, hden'⟩ := Rat.exists_eq_mul_div_num_and_eq_mul_div_den num (Int.natCast_ne_zero.mpr hden)
  rw [Int.cast_natCast] at hnum hden'
  generalize hq : (num : Rat) / den = q at *
  have hpos : 0 < c := by
    have hqden : (0 : Int) < q.den := Int.natCast_pos.mpr q.den_pos
    exact pos_of_mul_pos_left (hden' ▸ Int.natCast_pos.mpr (Nat.pos_of_ne_zero hden)) hqden.le
  lift c to Nat using hpos.le
  have hdenNat : den = c * q.den := by exact_mod_cast hden'
  rw [hnum, hdenNat, f32_mul_mul _ _ (by exact_mod_cast hpos)]

theorem exec_axis (raw : Channel) (s : State) :
    exec (.axis raw) s = .next { s with result := .axis (axis raw.toNat) } := rfl

/-- Settles O36: `axis_eq` in each of the ranges of `deadClamp`. -/
theorem axisIntegerForm : Obligations.AxisIntegerForm := by
  rintro raw s d rfl
  have haxis := axis_eq (channel_le raw)
  have hq := axisQ_eq raw.toNat
  obtain ⟨hclamp, hnegClamp⟩ := f32_clamps
  refine ⟨axis raw.toNat, exec_axis raw s, fun hzone => ?zone, fun hhigh => ?high, fun hlow => ?low,
    fun hout hin => ?mid, ?rounded⟩
  case rounded =>
    rw [haxis, hq]
    exact (f32_num_den _ (by decide)).symm
  case zone =>
    rw [haxis, hq, deadClamp_of_small (abs_le.mp hzone)]
    exact ⟨f32_zero _, by norm_num⟩
  case high =>
    rw [haxis, hq, deadClamp_of_high hhigh]
    exact ⟨hclamp, by norm_num⟩
  case low =>
    rw [haxis, hq, deadClamp_of_low hlow]
    exact ⟨hnegClamp, by norm_num⟩
  case mid =>
    have hin' := abs_lt.mp hin
    rw [haxis, hq, deadClamp_of_mid (fun hzone => absurd (abs_le.mpr hzone) (not_le.mpr hout)) hin'.1.le hin'.2.le]
    exact ⟨rfl, rfl⟩

/-- No number of 800ths lies halfway between two multiples of `2 ^ e`: 800 has a factor of 25. -/
theorem RoundedTo.noTie {v d : Int} {e : Nat} (h : RoundedTo v (d * 2 ^ 149) 800 e) (hlo : -2048 ≤ d) (hhi : d ≤ 2048) :
    2 * |v * 800 - d * 2 ^ 149| < 800 * 2 ^ e := by
  obtain ⟨j, hj⟩ := h.dvd
  have hnear := h.near
  have hnormal := h.normal
  rw [Nat.cast_ofNat] at hnear hnormal
  have he : e < 128 := by
    by_contra hge
    have hpow : (2 : Int) ^ 128 ≤ 2 ^ e := pow_le_pow_right₀ (by decide) (Nat.not_lt.mp hge)
    have hd : |d * 2 ^ 149| ≤ 2048 * 2 ^ 149 := abs_le.mpr ⟨by omega, by omega⟩
    omega
  obtain ⟨r, hr⟩ : ∃ r, 149 = e + (22 + r) := ⟨127 - e, by omega⟩
  have hpow : (2 : Int) ^ 149 = 2 ^ e * (2 ^ 22 * 2 ^ r) := by rw [← pow_add, ← pow_add, ← hr]
  have hfactor : v * 800 - d * 2 ^ 149 = 2 ^ e * (j * 800 - d * 2 ^ r * 2 ^ 22) := by
    rw [hj, hpow]
    ring
  have hunit : (0 : Int) < 2 ^ e := by positivity
  rw [hfactor, abs_mul, abs_of_pos hunit] at hnear ⊢
  generalize d * 2 ^ r = y at *
  have hle : 2 * |j * 800 - y * 2 ^ 22| ≤ 800 := le_of_mul_le_mul_left (by linarith) hunit
  have hodd : |j * 800 - y * 2 ^ 22| ≠ 400 := by
    intro hhalf
    obtain hplus | hminus := (abs_eq (by decide)).mp hhalf
    · omega
    · omega
  have hlt : |j * 800 - y * 2 ^ 22| < 400 := by omega
  have hscaled := mul_lt_mul_of_pos_left hlt hunit
  linarith

/-- The distance of a value from a number of 800ths, as a distance of whole numbers. -/
theorem abs_f32Value_sub (p : F32) (d : Int) :
    |f32Value p - (d : Rat) / 800| = ((|f32Scaled p * 800 - d * 2 ^ 149| : Int) : Rat) / (800 * 2 ^ 149) := by
  have hdiff : f32Value p - (d : Rat) / 800 = ((f32Scaled p * 800 - d * 2 ^ 149 : Int) : Rat) / (800 * 2 ^ 149) := by
    rw [f32Value]
    push_cast
    field_simp
    ring
  rw [hdiff, abs_div, Int.cast_abs, abs_of_pos (a := (800 * 2 ^ 149 : Rat)) (by norm_num)]

theorem f32Value_lt_iff {p q : F32} : f32Value p < f32Value q ↔ f32Scaled p < f32Scaled q := by
  rw [f32Value, f32Value, div_lt_div_iff_of_pos_right (by norm_num), Int.cast_lt]

theorem f32Value_le_iff {p q : F32} : f32Value p ≤ f32Value q ↔ f32Scaled p ≤ f32Scaled q := by
  rw [← not_lt, f32Value_lt_iff, not_lt]

theorem f32Value_inj {p q : F32} : f32Value p = f32Value q ↔ f32Scaled p = f32Scaled q := by
  rw [le_antisymm_iff, f32Value_le_iff, f32Value_le_iff, ← le_antisymm_iff]

/-- Settles O37: zero is exact, and every other number of 800ths is rounded to nearest without a tie. -/
theorem axisIsTheNearestBinary32 : Obligations.AxisIsTheNearestBinary32 := by
  intro raw p
  have hraw := channel_le raw
  refine ⟨f32Finite_axis hraw, fun _ hne => ?_⟩
  rw [axisQ_eq, abs_f32Value_sub, abs_f32Value_sub]
  have hne' : f32Scaled p ≠ scaled800 (deadClamp (raw.toNat - 1000)) := by
    rw [← f32Scaled_axis hraw]
    exact mt f32Value_inj.mpr hne
  obtain ⟨hlo, hhi⟩ := deadClamp_bounds (raw.toNat - 1000)
  have hnear : |f32Scaled (axis raw.toNat) * 800 - deadClamp (raw.toNat - 1000) * 2 ^ 149| <
      |f32Scaled p * 800 - deadClamp (raw.toNat - 1000) * 2 ^ 149| := by
    rw [f32Scaled_axis hraw]
    generalize deadClamp (raw.toNat - 1000) = d at *
    by_cases h0 : d = 0
    · rw [h0, scaled800_zero] at hne' ⊢
      simpa using hne'
    · obtain ⟨e, hround⟩ := f32_roundedTo (f32Normal_800 h0 (by omega) (by omega))
      exact hround.nearest (by decide) (hround.noTie (by omega) (by omega)) hne'
  gcongr

theorem scaled800_inj {c d : Int} (hclo : -2048 ≤ c) (hchi : c ≤ 2048) (hdlo : -2048 ≤ d) (hdhi : d ≤ 2048) :
    scaled800 c = scaled800 d ↔ c = d := by
  have hlt := scaled800_lt_iff hclo hchi hdlo hdhi
  have hgt := scaled800_lt_iff hdlo hdhi hclo hchi
  omega

/-- A value of AXIS lies between those of -1.0 and 1.0. -/
theorem f32Value_axis_bounds {raw : Nat} (hraw : raw ≤ 2047) : -1 ≤ f32Value (axis raw) ∧ f32Value (axis raw) ≤ 1 := by
  obtain ⟨hlo, hhi⟩ := deadClamp_bounds (raw - 1000)
  have hle := scaled800_le (by omega) hhi (by decide)
  have hge := scaled800_le (by decide) hlo (by omega)
  rw [scaled800_neg (by decide) (by decide)] at hge
  rw [scaled800_span] at hle hge
  rw [f32Value, f32Scaled_axis hraw, le_div_iff₀ (by norm_num), div_le_one (by norm_num)]
  constructor
  · rw [neg_one_mul]
    exact_mod_cast hge
  · exact_mod_cast hle

/-- A zero of AXIS is +0.0. -/
theorem axis_of_f32Value_zero {raw : Nat} (hraw : raw ≤ 2047) (h : f32Value (axis raw) = 0) :
    axis raw = 0x00000000#32 := by
  obtain ⟨hlo, hhi⟩ := deadClamp_bounds (raw - 1000)
  have hscaled : scaled800 (deadClamp (raw - 1000)) = scaled800 0 := by
    rw [← f32Scaled_axis hraw, scaled800_zero]
    simpa [f32Value] using h
  rw [axis_eq hraw, (scaled800_inj (by omega) (by omega) (by decide) (by decide)).mp hscaled, f32_zero]

/-- AXIS is odd about the centre. -/
theorem f32Value_axis_odd {t : Nat} (ht : t ≤ 1000) : f32Value (axis (1000 + t)) = -f32Value (axis (1000 - t)) := by
  have hup : ((1000 + t : Nat) : Int) - 1000 = t := by omega
  have hdown : ((1000 - t : Nat) : Int) - 1000 = -t := by omega
  obtain ⟨hlo, hhi⟩ := deadClamp_bounds t
  rw [f32Value, f32Value, f32Scaled_axis (by omega), f32Scaled_axis (by omega), hup, hdown, deadClamp_neg,
    scaled800_neg (by omega) (by omega), Int.cast_neg, neg_div, neg_neg]

theorem f32Value_axis_mono {x y : Nat} (hxy : x ≤ y) (hy : y ≤ 2047) : f32Value (axis x) ≤ f32Value (axis y) := by
  have hx := deadClamp_bounds (x - 1000)
  have hy' := deadClamp_bounds (y - 1000)
  rw [f32Value_le_iff, f32Scaled_axis (hxy.trans hy), f32Scaled_axis hy]
  exact scaled800_le (by omega) (deadClamp_mono (by omega)) (by omega)

/-- Between the dead zone and the clamp AXIS rises at every step. -/
theorem f32Value_axis_strict {x y : Nat} (hxy : x < y) (h : (200 ≤ x ∧ y ≤ 984) ∨ (1016 ≤ x ∧ y ≤ 1800)) :
    f32Value (axis x) < f32Value (axis y) := by
  rw [f32Value_lt_iff, f32Scaled_axis (by omega), f32Scaled_axis (by omega),
    deadClamp_of_mid (by omega) (by omega) (by omega), deadClamp_of_mid (by omega) (by omega) (by omega)]
  exact (scaled800_lt_iff (by omega) (by omega) (by omega) (by omega)).mpr (by omega)

/-- Settles O38: AXIS rounds `deadClamp`, which is bounded, odd and monotonic, and the identity between the dead zone
and the clamp; and rounding 800ths keeps the order. -/
theorem axisShape : Obligations.AxisShape := by
  refine ⟨fun raw => ?bounded, fun t ht => f32Value_axis_odd ht,
    fun x y hxy => f32Value_axis_mono hxy (channel_le y), fun x y hxy h => f32Value_axis_strict hxy h⟩
  case bounded =>
    have hraw := channel_le raw
    obtain ⟨hlo, hhi⟩ := f32Value_axis_bounds hraw
    exact ⟨f32Finite_axis hraw, hlo, hhi, axis_of_f32Value_zero hraw⟩

end Sys2Proof.Machine
end

section
/-! PROOFS. AXEQ (`spec/42_calibrator.md` rules R138, R139; log entry 8): a comparison of whole numbers, and on AXIS
values an equality, because different values of AXIS lie farther apart than the tolerance. -/

namespace Sys2Proof.Machine

theorem axeq_iff (a b : F32) : axeq a b = true ↔ |f32Scaled a - f32Scaled b| ≤ 2 ^ 126 := decide_eq_true_iff

theorem axeq_self (a : F32) : axeq a a = true := by
  rw [axeq_iff, sub_self, abs_zero]
  norm_num

theorem axeq_comm (a b : F32) : axeq a b = axeq b a := by
  rw [Bool.eq_iff_iff, axeq_iff, axeq_iff, abs_sub_comm]

/-- The tolerance on whole numbers is that on the exact values. -/
theorem abs_f32Scaled_sub_le_iff (a b : F32) :
    |f32Scaled a - f32Scaled b| ≤ 2 ^ 126 ↔ |f32Value a - f32Value b| ≤ (1 : Rat) / 2 ^ 23 := by
  have hdiff : |f32Value a - f32Value b| = ((|f32Scaled a - f32Scaled b| : Int) : Rat) / 2 ^ 149 := by
    rw [f32Value, f32Value, ← sub_div, abs_div, Int.cast_abs, Int.cast_sub,
      abs_of_pos (a := (2 ^ 149 : Rat)) (by norm_num)]
  have htolerance : (1 : Rat) / 2 ^ 23 = ((2 ^ 126 : Int) : Rat) / 2 ^ 149 := by norm_num
  rw [hdiff, htolerance, div_le_div_iff_of_pos_right (by norm_num), Int.cast_le]

/-- Settles O41: finite operands are compared, and the comparison is that of their exact values. -/
theorem axeqIsTheToleranceEquality : Obligations.AxeqIsTheToleranceEquality := by
  intro a b s ha hb
  have hdecide : axeq a b = decide (|f32Value a - f32Value b| ≤ (1 : Rat) / 2 ^ 23) := by
    rw [Bool.eq_iff_iff, axeq_iff, abs_f32Scaled_sub_le_iff, decide_eq_true_iff]
  rw [exec_axeq ((f32Finite_iff a).mpr ha) ((f32Finite_iff b).mpr hb), hdecide]

/-- AXIS values within the tolerance of each other round the same number of 800ths. -/
theorem axis_eq_of_axeq {x y : Nat} (hx : x ≤ 2047) (hy : y ≤ 2047) (h : axeq (axis x) (axis y) = true) :
    axis x = axis y := by
  rw [axeq_iff, f32Scaled_axis hx, f32Scaled_axis hy, abs_le] at h
  rw [axis_eq hx, axis_eq hy]
  obtain ⟨hxlo, hxhi⟩ := deadClamp_bounds (x - 1000)
  obtain ⟨hylo, hyhi⟩ := deadClamp_bounds (y - 1000)
  obtain hlt | heq | hgt := lt_trichotomy (deadClamp (x - 1000)) (deadClamp (y - 1000))
  · have := scaled800_gap (by omega) hlt (by omega)
    omega
  · rw [heq]
  · have := scaled800_gap (by omega) hgt (by omega)
    omega

/-- Settles O42: the comparison is of a distance, and on AXIS values `axis_eq_of_axeq`. -/
theorem axeqOnAxisValuesIsEquality : Obligations.AxeqOnAxisValuesIsEquality := by
  refine ⟨fun a b _ _ => ⟨axeq_self a, axeq_comm a b⟩, by decide, fun x y => ⟨?_, fun h => ?_⟩⟩
  · exact axis_eq_of_axeq (channel_le x) (channel_le y)
  · rw [h, axeq_self]

end Sys2Proof.Machine
end

section
/-! PROOFS. The fields of the Controller State (`spec/42_calibrator.md` rule R142). -/

namespace Sys2Proof.Machine

/-- CTRLMAP reads the first eight channels only. -/
theorem ctrlmap_congr (kind : CtrlKind) {ch ch' : Channels} (h : ∀ (j : Nat) (_ : j < 8), ch[j] = ch'[j]) :
    ctrlmap kind ch = ctrlmap kind ch' := by
  simp (disch := decide) only [ctrlmap, h]

/-- Settles O44: each field names its channel, and a changed channel is seen under its own index alone. -/
theorem ctrlmapFieldsAreIndependent : Obligations.CtrlmapFieldsAreIndependent := by
  refine ⟨fun kind ch ch' h => ctrlmap_congr kind h, fun kind ch v => ?_⟩
  simp [ctrlmap]

end Sys2Proof.Machine
end
